-- ==== Sys2Proof/Word.lean ====
section
/-! DEFINITION. The words of SHA1CORE: what the spec treats as bits, each at the width the spec gives it. -/

namespace Sys2Proof

/-- A byte of a message or of the buffer (R8, R22). -/
abbrev Byte := BitVec 8

/-- A state word, schedule word or working variable: WORD = 32 bits (R5, R21). -/
abbrev Word := BitVec 32

/-- A command word `cmd[15:0]`: CMDBITS = 16 (R5, R55). -/
abbrev CmdWord := BitVec 16

/-- A response word `rsp[33:0]`: RSPBITS = 34 (R5, R56). -/
abbrev RspWord := BitVec 34

/-- The length counter and its big-endian encoding: LENBITS = 64 (R5, R23). -/
abbrev LenWord := BitVec 64

end Sys2Proof
end

