-- ==== Sys2Proof/Machine/Bytes.lean ====
section
/-! DEFINITION. The big-endian conversions between bytes and words (R8, R41 to R43). -/

namespace Sys2Proof.Machine

/-- `be32(v)` of R8: four bytes, most significant first. -/
def be32 (v : Word) : List Byte :=
  [v.extractLsb' 24 8, v.extractLsb' 16 8, v.extractLsb' 8 8, v.extractLsb' 0 8]

/-- `be64(v)` of R8: eight bytes, most significant first. -/
def be64 (v : LenWord) : List Byte :=
  [v.extractLsb' 56 8, v.extractLsb' 48 8, v.extractLsb' 40 8, v.extractLsb' 32 8,
   v.extractLsb' 24 8, v.extractLsb' 16 8, v.extractLsb' 8 8, v.extractLsb' 0 8]

/-- `zeros(z)` of R8. -/
def zeros (z : Nat) : List Byte := List.replicate z 0

/-- Byte `i` of a byte sequence, `s[i]` of R8. A list carries no length in its type, so a read past the end needs a
value (0, log 11); no rule makes such a read: a block has 64 bytes (R70). -/
def byteAt (s : List Byte) (i : Nat) : Byte := s.getD i 0

/-- `word_be(s, j)` of R8: the bytes 4j to 4j+3, the first the most significant. -/
def wordBE (s : List Byte) (j : Nat) : Word :=
  byteAt s (4 * j) ++ byteAt s (4 * j + 1) ++ byteAt s (4 * j + 2) ++ byteAt s (4 * j + 3)

end Sys2Proof.Machine
end

