-- ==== Sys2Proof/Config.lean ====
section
/-! DEFINITION. The parameters of R5: the fixed values that State.reset needs, and the three OPEN ones as constants
without a body. -/

namespace Sys2Proof.Config

/-- IV0 of R31 (the spec's own source is general knowledge, G1; log 5). -/
def iv0 : Word := 0x67452301#32
/-- IV1 of R31 (log 5). -/
def iv1 : Word := 0xEFCDAB89#32
/-- IV2 of R31 (log 5). -/
def iv2 : Word := 0x98BADCFE#32
/-- IV3 of R31 (log 5). -/
def iv3 : Word := 0x10325476#32
/-- IV4 of R31 (log 5). -/
def iv4 : Word := 0xC3D2E1F0#32

/-- BLOCKBYTES of R5, which is also the number of slots of BUF (R22). -/
def blockBytes : Nat := 64

/-- BUF_STALE of R5, an OPEN parameter: what the physical slot holds while it is not valid (R22, U5). A free value:
no rule of the spec reads it. DESIGN CHOICE, safe (log 3). -/
opaque bufStale : Nat → Byte

/-- CYCLES_PER_BLOCK of R5, an OPEN parameter: unobservable, the model has no time and uses it nowhere (R147, log 8). -/
opaque cyclesPerBlock : Nat

/-- NINST of R5, an OPEN parameter: how many instances a system has; this model is one of them and uses it nowhere
(R131, log 9). -/
opaque nInst : Nat

end Sys2Proof.Config
end

