-- ==== Sys2Proof/Machine/State.lean ====
section
/-! DEFINITION. The state of SHA1CORE (R20), what comes in from the host and what goes out to it, and the state right
after reset (R31). -/

namespace Sys2Proof.Machine

/-- The hash state H0..H4 (R21), also an input or output of the compression engine (R70). -/
structure HashState where
  h0 : Word
  h1 : Word
  h2 : Word
  h3 : Word
  h4 : Word
  deriving DecidableEq, Repr

/-- IV0..IV4 (R31). -/
def iv : HashState := ⟨Config.iv0, Config.iv1, Config.iv2, Config.iv3, Config.iv4⟩

/-- The buffer space of R40 (a): the VALID slots as (index, byte) pairs. A slot that is not listed holds no defined
value (R22, log 3). -/
abbrev Memory := List Host.Cell

/-- The canonical form: slot numbers strictly rising, all of them slots of BUF. An unlisted slot reads as no value, so
no entry can equal what an unlisted one reads as. -/
abbrev Memory.wf (m : Memory) : Prop :=
  m.Pairwise (fun x y => x.1 < y.1) ∧ ∀ c ∈ m, c.1 < Config.blockBytes

/-- The response codes of R56. CODE 0b11 is never produced and has no constructor (U8). -/
inductive Code
  | ok
  | estate
  | eillegal
  deriving DecidableEq, Repr

/-- One response (R56). -/
structure Response where
  code : Code
  data : Word
  deriving DecidableEq, Repr

/-- The two exceptions of R120. -/
inductive Exc
  | estate
  | eillegal
  deriving DecidableEq, Repr

/-- What the host can do (R9, R62): present a command word, or assert reset (R140). -/
inductive HostEvent
  | command (w : CmdWord)
  | reset
  deriving DecidableEq, Repr

/-- The phase of the lifecycle (R24, R95). -/
inductive Phase
  | active
  | finalized
  deriving DecidableEq, Repr

/-- The reasons the machine stops with a fault. There is none: every command terminates with a response and SHA1CORE
never hangs (R148), and the two exceptions of R120 are next states (R125, log 6). Nobody raises it. -/
inductive Fault
  deriving DecidableEq, Repr

/-- The reasons an instruction has no meaning. -/
inductive Refusal
  /-- Raised by an arm of `exec` whose instruction has no meaning yet; safe. No arm raises it: all four commands have
  their meaning. -/
  | notModelled (mnemonic : String)
  deriving DecidableEq, Repr

/-- The whole state: the tuple of R20, then the two lists that stand for the host's side of the port (log 1, log 2). -/
structure State where
  /-- H0..H4 (R21). -/
  h : HashState
  /-- BUF, its valid slots (R22). -/
  buf : Memory
  /-- BUFLEN, 6 bits (R22). -/
  buflen : BitVec 6
  /-- LEN, 64 bits (R23). -/
  len : LenWord
  /-- FIN (R24). -/
  fin : Bool
  /-- ERR (R25). -/
  err : Bool
  /-- The host's events still to come, the next one first (R9, R65). DESIGN CHOICE, the model's own field (log 1). -/
  inbox : List HostEvent
  /-- The responses produced so far, the first one first (R56). DESIGN CHOICE, the model's own field (log 2). -/
  responses : List Response
  deriving DecidableEq, Repr

/-- The outcome of one step. -/
abbrev Result := Host.Outcome State Fault Refusal

/-- The state after the reset event (R31, R140): the values of R31, no slot of BUF valid. No host event is pending and
no response was produced yet (log 1, log 2). -/
def State.reset : State where
  h := iv
  buf := []
  buflen := 0
  len := 0
  fin := false
  err := false
  inbox := []
  responses := []

end Sys2Proof.Machine
end

