-- ==== Sys2Proof/Machine/Engine.lean ====
section
/-! DEFINITION. The compression engine (R70 to R90): arithmetic, the block expander, the round datapath, `compress`;
then the sixteen-word window that R88 permits and the packed interface of R90. -/

namespace Sys2Proof.Machine

/-- `add32(x, y)` of R71: the sum mod 2^32, no flag. -/
def add32 (x y : Word) : Word := x + y

/-- `rotl(n, b)` of R72, for 0 < b < 32. The spec defines no other count (U7), so none can be written: the bound is an
argument (log 10). -/
def rotl (n : Word) (b : Nat) (_inRange : 0 < b ∧ b < 32 := by decide) : Word :=
  (n <<< b) ||| (n >>> (32 - b))

/-- f_ch, rounds 0 to 19 (R76). -/
def fCh (b c d : Word) : Word := d ^^^ (b &&& (c ^^^ d))

/-- f_par, rounds 20 to 39 (R77) and 60 to 79 (R79). -/
def fPar (b c d : Word) : Word := b ^^^ c ^^^ d

/-- f_maj, rounds 40 to 59 (R78). -/
def fMaj (b c d : Word) : Word := (b &&& c) ||| (b &&& d) ||| (c &&& d)

/-- f_t, chosen by the round index alone (R76 to R79). -/
def roundFn (t : Nat) (b c d : Word) : Word :=
  if t < 20 then fCh b c d
  else if t < 40 then fPar b c d
  else if t < 60 then fMaj b c d
  else fPar b c d

/-- K_t, chosen by the round index alone (R80). -/
def roundConst (t : Nat) : Word :=
  if t < 20 then 0x5A827999#32
  else if t < 40 then 0x6ED9EBA1#32
  else if t < 60 then 0x8F1BBCDC#32
  else 0xCA62C1D6#32

/-- The word load of R74: w[0..15] of a block. -/
def loadWords (B : List Byte) : List Word := (List.range 16).map (wordBE B)

/-- Schedule word w[i], a word past the end never being read (log 11). -/
def wordAt (w : List Word) (i : Nat) : Word := w.getD i 0

/-- The recurrence of R75 for w[i], i in 16..79. -/
def scheduleWord (w : List Word) (i : Nat) : Word :=
  rotl (wordAt w (i - 3) ^^^ wordAt w (i - 8) ^^^ wordAt w (i - 14) ^^^ wordAt w (i - 16)) 1

/-- `k` more schedule words behind those already there, in increasing index (R75). -/
def expand : Nat → List Word → List Word
  | 0, w => w
  | k + 1, w => expand k (w ++ [scheduleWord w w.length])

/-- The schedule w[0..79] of a block (R75). -/
def schedule (B : List Byte) : List Word := expand 64 (loadWords B)

/-- The working variables a, b, c, d, e (R30, R81). -/
structure Vars where
  a : Word
  b : Word
  c : Word
  d : Word
  e : Word
  deriving DecidableEq, Repr

/-- The working variables at the start of a compression (R81). -/
def initVars (S : HashState) : Vars := ⟨S.h0, S.h1, S.h2, S.h3, S.h4⟩

/-- One round with round index `t` and schedule word `w` (R82). -/
def oneRound (t : Nat) (w : Word) (v : Vars) : Vars where
  a := add32 (add32 (add32 (add32 (rotl v.a 5) (roundFn t v.b v.c v.d)) v.e) (roundConst t)) w
  b := v.a
  c := rotl v.b 30
  d := v.c
  e := v.d

/-- The rounds from index `t` on, one per schedule word (R84). -/
def rounds : Nat → List Word → Vars → Vars
  | _, [], v => v
  | t, w :: ws, v => rounds (t + 1) ws (oneRound t w v)

/-- The add-back (R83). -/
def addBack (S : HashState) (v : Vars) : HashState where
  h0 := add32 S.h0 v.a
  h1 := add32 S.h1 v.b
  h2 := add32 S.h2 v.c
  h3 := add32 S.h3 v.d
  h4 := add32 S.h4 v.e

/-- `compress(S, B)` (R70, R84). -/
@[irreducible] def compress (S : HashState) (B : List Byte) : HashState :=
  addBack S (rounds 0 (schedule B) (initVars S))

/-- The window update of R88 before round `t`: `W[s]` becomes w[t], with s = t mod 16. -/
def windowUpdate (t : Nat) (W : List Word) : List Word :=
  let s := t % 16
  W.set s (rotl (wordAt W ((s + 13) % 16) ^^^ wordAt W ((s + 8) % 16) ^^^ wordAt W ((s + 2) % 16) ^^^ wordAt W s) 1)

/-- The window that round `t` reads: updated first in rounds 16 to 79 (R88). -/
def windowAt (t : Nat) (W : List Word) : List Word := if t < 16 then W else windowUpdate t W

/-- `k` rounds from index `t` on over a sixteen-word window (R88). -/
def windowRounds : Nat → Nat → List Word → Vars → Vars
  | 0, _, _, v => v
  | k + 1, t, W, v =>
    windowRounds k (t + 1) (windowAt t W) (oneRound t (wordAt (windowAt t W) (t % 16)) v)

/-- The permitted implementation of R88: the same function without the eighty-word schedule. -/
def compressWindow (S : HashState) (B : List Byte) : HashState :=
  addBack S (windowRounds 80 0 (loadWords B) (initVars S))

/-- `state[159:0] = (s0, s1, s2, s3, s4)`, s0 in the most significant position (R90). -/
def packState (S : HashState) : BitVec 160 := S.h0 ++ S.h1 ++ S.h2 ++ S.h3 ++ S.h4

/-- The five words of a packed state (R90). -/
def unpackState (v : BitVec 160) : HashState where
  h0 := v.extractLsb' 128 32
  h1 := v.extractLsb' 96 32
  h2 := v.extractLsb' 64 32
  h3 := v.extractLsb' 32 32
  h4 := v.extractLsb' 0 32

/-- `block[511:0]`, byte 0 in the most significant position (R90: the byte order of R41 applied to B[0..63]). -/
def packBlock (B : List Byte) : BitVec 512 := B.foldl (fun acc b => acc <<< 8 ||| b.setWidth 512) 0

/-- The 64 bytes of a packed block, the most significant first (R90). -/
def unpackBlock (v : BitVec 512) : List Byte := (List.range 64).map fun i => v.extractLsb' (8 * (63 - i)) 8

/-- The engine as a separate module with the ports of R90: `state_out` from `state_in` and `block`. -/
def engine (stateIn : BitVec 160) (block : BitVec 512) : BitVec 160 :=
  packState (compress (unpackState stateIn) (unpackBlock block))

end Sys2Proof.Machine
end

