-- ==== Sys2Proof/Machine/Flags.lean ====
section
/-! DEFINITION. The flags FIN and ERR and the STATUS composite (R24 to R27). SHA1CORE has no carry, zero, sign or
overflow flag (R24). -/

namespace Sys2Proof.Machine

/-- The phase, which is the flag FIN (R24, R95). -/
def State.phase (s : State) : Phase := if s.fin then .finalized else .active

/-- A one-bit flag as a bit. -/
def flagBit (b : Bool) : BitVec 1 := BitVec.ofBool b

/-- STATUS (R27): BUFLEN in bits 13:8, ERR in bit 1, FIN in bit 0, every other bit hardwired 0. -/
def statusWord (fill : BitVec 6) (err fin : Bool) : Word :=
  0#18 ++ fill ++ 0#6 ++ flagBit err ++ flagBit fin

end Sys2Proof.Machine
end

