-- ==== Sys2Proof/Machine/Ops.lean ====
section
/-! DEFINITION. The operations the commands share: the buffer space (R10, R40), the responses (R56), the
initialisation that INIT and reset share (R31), and taking an exception (R125). -/

namespace Sys2Proof.Machine

/-- The byte of a slot, none when the slot is not valid (R22). -/
def Memory.read : Memory → Nat → Option Byte
  | [], _ => none
  | (k, b) :: m, a => if k = a then some b else Memory.read m a

/-- Store one byte in a slot, keeping the listing in rising order. -/
def Memory.write : Memory → Nat → Byte → Memory
  | [], a, b => [(a, b)]
  | (k, c) :: m, a, b =>
    if a < k then (a, b) :: (k, c) :: m
    else if a = k then (a, b) :: m
    else (k, c) :: Memory.write m a b

/-- What the physical slot delivers: its byte when valid, the OPEN parameter BUF_STALE when not (R5, U5). The rules
read valid slots only (R40), so in a state that meets `Buffer.exact` (Safety.lean) no free value is delivered (log 3). -/
def Memory.slot (m : Memory) (a : Nat) : Byte := (m.read a).getD (Config.bufStale a)

/-- `MemRead(addr, n)` of R10. -/
def memRead (m : Memory) (addr n : Nat) : List Byte := (List.range n).map fun i => m.slot (addr + i)

/-- `MemWrite(addr, n, v)` of R10, n being the number of bytes given. -/
def memWrite (m : Memory) (addr : Nat) : List Byte → Memory
  | [] => m
  | b :: bs => memWrite (m.write addr b) (addr + 1) bs

/-- `respond(code, data)` of R56: exactly one response, after all earlier ones. -/
def State.respond (s : State) (code : Code) (data : Word) : State :=
  { s with responses := s.responses ++ [⟨code, data⟩] }

/-- `ERR <- 1` (R25). -/
def State.setErr (s : State) : State := { s with err := true }

/-- `H <- (v0, v1, v2, v3, v4)` (R10). -/
def State.setHash (s : State) (h : HashState) : State := { s with h := h }

/-- `FIN <- 1` (R24). -/
def State.setFin (s : State) : State := { s with fin := true }

/-- `BUFLEN <- n` for n up to 63 (R22). -/
def State.setFill (s : State) (n : Nat) : State := { s with buflen := BitVec.ofNat 6 n }

/-- `LEN <- (LEN + 8) mod 2^64` (R23, R104). -/
def State.countByte (s : State) : State := { s with len := s.len + 8 }

/-- `MemWrite(BUFLEN, 1, [d])`, the address being the hardware's own write pointer (R40, R97). -/
def State.storeByte (s : State) (d : Byte) : State := { s with buf := memWrite s.buf s.buflen.toNat [d] }

/-- `BUFLEN <- 0` after a block was drained, or at INIT: no slot is valid any more (R22, log 4). -/
def State.emptyBuffer (s : State) : State := { s with buf := [], buflen := 0 }

/-- The values of R31, which INIT and reset both load (R96, R140). The host's side of the port is no state of SHA1CORE
and stays. -/
def State.initialise (s : State) : State :=
  { s.emptyBuffer with h := iv, len := 0, fin := false, err := false }

/-- The response code of an exception (R120). -/
def Exc.code : Exc → Code
  | .estate => .estate
  | .eillegal => .eillegal

/-- Taking an exception (R125): `ERR <- 1; respond(code(E), 0)` and nothing else; control goes nowhere. There is no
return from an exception to model (R127). -/
def raise (e : Exc) (s : State) : Result := .next (s.setErr.respond e.code 0)

/-- CODE, bits 33:32 of a response word (R56). -/
def Code.bits : Code → BitVec 2
  | .ok => 0b00
  | .estate => 0b01
  | .eillegal => 0b10

/-- The response word `rsp[33:0] = (CODE, DATA)` (R56). -/
def Response.word (r : Response) : RspWord := r.code.bits ++ r.data

end Sys2Proof.Machine
end

