-- ==== Sys2Proof/Machine/Hasher.lean ====
section
/-! DEFINITION. The streaming hasher's commands INIT, UPDB, FINAL (R95 to R105). -/

namespace Sys2Proof.Machine

/-- The number of zero bytes of the pad, (55 - n) mod 64, for n up to 63 (R100). -/
def padZeros (n : Nat) : Nat := (55 + 64 - n) % 64

/-- `pad(n, L)` (R100): the buffered remainder, 0x80, zero bytes, the 64-bit big-endian length. -/
def pad (m : Memory) (n : Nat) (L : LenWord) : List Byte :=
  memRead m 0 n ++ [0x80#8] ++ zeros (padZeros n) ++ be64 L

/-- FINAL's compressions of the tail: its first 64 bytes, then the second 64 when it has 128 (R101). -/
def compressTail (S : HashState) (T : List Byte) : HashState :=
  let S1 := compress S (T.take 64)
  if T.length = 128 then compress S1 (T.drop 64) else S1

/-- The end of UPDB: `n` bytes are in the buffer; at 64 the block is drained into the engine, else `BUFLEN <- n`
(R97, R48). -/
def State.drainAt (n : Nat) (s : State) : State :=
  if n = 64 then (s.setHash (compress s.h (memRead s.buf 0 64))).emptyBuffer else s.setFill n

/-- INIT (R96): in any phase, whatever ERR is. -/
def execInit (s : State) : Result := .next (s.initialise.respond .ok 0)

/-- UPDB d (R97). -/
def execUpdb (d : Byte) (s : State) : Result :=
  match s.phase with
  | .finalized => raise .estate s
  | .active => .next (((s.countByte.storeByte d).drainAt (s.buflen.toNat + 1)).respond .ok 0)

/-- FINAL (R101). -/
def execFinal (s : State) : Result :=
  match s.phase with
  | .finalized => raise .estate s
  | .active => .next ((s.setHash (compressTail s.h (pad s.buf s.buflen.toNat s.len))).setFin.respond .ok 0)

end Sys2Proof.Machine
end

