-- ==== Sys2Proof/Syntax.lean ====
section
/-! DEFINITION. The commands of SHA1CORE, one constructor per row of spec/opcode_table.json, and the assembler's
source lines (R63, R64). -/

namespace Sys2Proof

/-- The eight readable registers of R26, by the names of R63. Numbers 8 and above do not exist, so no term names one. -/
inductive Reg
  | h0 | h1 | h2 | h3 | h4 | lenh | lenl | status
  deriving DecidableEq, Repr

/-- The four commands of R57. Each operand has exactly the width its field has (R58), so every term is a legal
command: `updb` takes any of the 256 data bytes, `rdr` any of the eight registers. -/
inductive Instr
  /-- INIT, R96. -/
  | init
  /-- UPDB d, R97. -/
  | updb (d : Byte)
  /-- FINAL, R101. -/
  | final
  /-- RDR r, R110. -/
  | rdr (r : Reg)
  deriving DecidableEq, Repr

/-- How R63 writes a byte: a number (hexadecimal or decimal) or one printable ASCII character. -/
inductive ByteLit
  | num (n : Nat)
  | chr (c : Char)
  deriving DecidableEq, Repr

/-- How R63 writes a register: a number 0..7 or a name. -/
inductive RegLit
  | num (n : Nat)
  | name (r : Reg)
  deriving DecidableEq, Repr

/-- One source line: a command or `.word` of R63, or a pseudo-instruction of R64. -/
inductive AsmLine
  | init
  | updb (b : ByteLit)
  | final
  | rdr (r : RegLit)
  | word (v : Nat)
  | updateText (text : List Char)
  | updateBytes (bs : List ByteLit)
  | fill (b : ByteLit) (count : Nat)
  | rddigest
  | rdlen
  | sha1 (text : List Char)
  deriving DecidableEq, Repr

end Sys2Proof
end

