-- ==== Sys2Proof/WellFormed.lean ====
section
/-! DEFINITION. What a source line must satisfy (R63, R64). A term of Instr needs no check: its operands have their
fields' widths. The legality of a command WORD (R59) is `legalWord` of Decode.lean. -/

namespace Sys2Proof

/-- Every term of Instr is a legal command: an 8-bit data byte is never illegal (R58, R123) and a term of Reg names
one of the eight registers that exist (R26). -/
def Instr.wellFormed : Instr → Bool
  | .init => true
  | .updb _ => true
  | .final => true
  | .rdr _ => true

/-- R63: `<byte>` is 0x00..0xFF, or decimal 0..255, or a single printable ASCII character. -/
def ByteLit.wellFormed : ByteLit → Bool
  | .num n => n ≤ 255
  | .chr c => 0x20 ≤ c.toNat && c.toNat ≤ 0x7E

/-- R63: `<reg>` is a number 0..7 or one of the names. -/
def RegLit.wellFormed : RegLit → Bool
  | .num n => n ≤ 7
  | .name _ => true

/-- R64: the text of UPDATE and SHA1 is ASCII text. -/
def asciiText (text : List Char) : Bool := text.all fun c => decide (c.toNat < 128)

/-- A well-formed source line: every operand is one that R63 or R64 allows; `.word` takes a 16-bit value. -/
def AsmLine.wellFormed : AsmLine → Bool
  | .init => true
  | .updb b => b.wellFormed
  | .final => true
  | .rdr r => r.wellFormed
  | .word v => v < 65536
  | .updateText text => asciiText text
  | .updateBytes bs => bs.all ByteLit.wellFormed
  | .fill b _ => b.wellFormed
  | .rddigest => true
  | .rdlen => true
  | .sha1 text => asciiText text

end Sys2Proof
end

