-- ==== Sys2Proof/Decode.lean ====
section
/-! DEFINITION. The decoder, total on all 2^16 command words (R60), which names why it refuses one (R59); and the
encoder, written from the same rows (R57). -/

namespace Sys2Proof

/-- `cmd[15:12]` (R55). -/
def opField (w : CmdWord) : BitVec 4 := w.extractLsb' 12 4

/-- `cmd[11:8]`, reserved (R55). -/
def rsvField (w : CmdWord) : BitVec 4 := w.extractLsb' 8 4

/-- `cmd[7:0]` (R55). -/
def argField (w : CmdWord) : Byte := w.extractLsb' 0 8

/-- `cmd[2:0]`, the register number of RDR (R58). -/
def regField (w : CmdWord) : BitVec 3 := w.extractLsb' 0 3

/-- `cmd[7:3]`, which must be 0 in RDR (R58). -/
def regHighField (w : CmdWord) : BitVec 5 := w.extractLsb' 3 5

/-- Why a word is illegal, by the case of R59 that holds of it. Where several hold, the first in the order of R60's
procedure is named; the machine's behaviour does not depend on it (DESIGN CHOICE, safe, log 14). -/
inductive Illegal
  /-- R59 (b): a reserved bit is not 0. -/
  | reservedBits
  /-- R59 (a): OP is 0x0 or 0x5..0xF. -/
  | opcode
  /-- R59 (c): INIT or FINAL with a non-zero ARG. -/
  | operand
  /-- R59 (d): RDR of a register that does not exist. -/
  | register
  deriving DecidableEq, Repr

/-- What a word decodes to: one of the four commands, or ILLEGAL with its reason (R60). -/
inductive Decoded
  | instr (i : Instr)
  | illegal (why : Illegal)
  deriving DecidableEq, Repr

/-- The number of a register (R26, R63). -/
def Reg.number : Reg → BitVec 3
  | .h0 => 0
  | .h1 => 1
  | .h2 => 2
  | .h3 => 3
  | .h4 => 4
  | .lenh => 5
  | .lenl => 6
  | .status => 7

/-- The register with a given number (R26): all eight numbers of the 3-bit field name one. -/
def Reg.ofNumber (r : BitVec 3) : Reg :=
  match r.toNat with
  | 0 => .h0
  | 1 => .h1
  | 2 => .h2
  | 3 => .h3
  | 4 => .h4
  | 5 => .lenh
  | 6 => .lenl
  | _ => .status

/-- R60's decoding procedure, every ILLEGAL with its reason. -/
def decode (w : CmdWord) : Decoded :=
  if rsvField w ≠ 0 then .illegal .reservedBits
  else match (opField w).toNat with
    | 1 => if argField w = 0 then .instr .init else .illegal .operand
    | 2 => .instr (.updb (argField w))
    | 3 => if argField w = 0 then .instr .final else .illegal .operand
    | 4 => if regHighField w = 0 then .instr (.rdr (Reg.ofNumber (regField w))) else .illegal .register
    | _ => .illegal .opcode

/-- The word of a command, as R57 writes its pattern bit by bit. -/
def encode : Instr → CmdWord
  | .init => 0b0001#4 ++ 0b0000#4 ++ 0b00000000#8
  | .updb d => 0b0010#4 ++ 0b0000#4 ++ d
  | .final => 0b0011#4 ++ 0b0000#4 ++ 0b00000000#8
  | .rdr r => 0b0100#4 ++ 0b0000#4 ++ 0b00000#5 ++ r.number

/-- One row of the opcode map (R57): a word selects the row when its bits under `mask` equal `pattern`. -/
structure OpcodeRow where
  mask : CmdWord
  pattern : CmdWord
  deriving DecidableEq, Repr

/-- The row of each command (R57; spec/opcode_table.json's match and mask). -/
def Instr.row : Instr → OpcodeRow
  | .init => ⟨0xFFFF, 0x1000⟩
  | .updb _ => ⟨0xFF00, 0x2000⟩
  | .final => ⟨0xFFFF, 0x3000⟩
  | .rdr _ => ⟨0xFFF8, 0x4000⟩

/-- The four rows of R57. -/
def opcodeRows : List OpcodeRow :=
  [⟨0xFFFF, 0x1000⟩, ⟨0xFF00, 0x2000⟩, ⟨0xFFFF, 0x3000⟩, ⟨0xFFF8, 0x4000⟩]

/-- R57: `c and mask = match`. -/
def OpcodeRow.selects (r : OpcodeRow) (w : CmdWord) : Bool := w &&& r.mask == r.pattern

/-- A word is legal when it matches a row of R57 (R59); a check of the word alone, independent of `decode`. -/
def legalWord (w : CmdWord) : Bool := opcodeRows.any fun r => r.selects w

/-- The instruction the decoder reads from a command whose bits are `w`, bit 0 the least significant. A command is one
16-bit word (R55), so more than 16 bits, or a value that does not fit in `nbits`, is no command (log 12). -/
def decodeTableWord (nbits w : Nat) : Option Instr :=
  if nbits ≤ 16 ∧ w < 2 ^ nbits then
    match decode (BitVec.ofNat 16 w) with
    | .instr i => some i
    | .illegal _ => none
  else none

end Sys2Proof
end

