-- ==== Sys2Proof/Machine/Operands.lean ====
section
/-! DEFINITION. What an operand names: the register space of R26, read by RDR. (UPDB's data byte is used as it stands,
R58, and no other command has an operand.) -/

namespace Sys2Proof.Machine

/-- LENH, LEN[63:32] (R112). -/
def lenHigh (len : LenWord) : Word := len.extractLsb' 32 32

/-- LENL, LEN[31:0] (R113). -/
def lenLow (len : LenWord) : Word := len.extractLsb' 0 32

/-- The value of a readable register, computed at the moment of the read (R26, R110 to R114). -/
def State.regValue (s : State) : Reg → Word
  | .h0 => s.h.h0
  | .h1 => s.h.h1
  | .h2 => s.h.h2
  | .h3 => s.h.h3
  | .h4 => s.h.h4
  | .lenh => lenHigh s.len
  | .lenl => lenLow s.len
  | .status => statusWord s.buflen s.err s.fin

end Sys2Proof.Machine
end

