-- ==== Sys2Proof/Machine/Readout.lean ====
section
/-! DEFINITION. The readout command RDR (R110 to R114) and the digest with its two presentations (R115 to R117). -/

namespace Sys2Proof.Machine

/-- RDR r (R110): respond with the register's value; no state is written, not even ERR (R46). -/
def execRdr (r : Reg) (s : State) : Result := .next (s.respond .ok (s.regValue r))

/-- The digest (R115): the 160-bit value with H0 in the most significant position. It is the digest of a message
exactly while FIN = 1. -/
def digest (h : HashState) : BitVec 160 := packState h

/-- The raw 20-byte form (R116). The host forms it. -/
def digestBytes (h : HashState) : List Byte := be32 h.h0 ++ be32 h.h1 ++ be32 h.h2 ++ be32 h.h3 ++ be32 h.h4

/-- One lowercase hexadecimal digit (R117). -/
def hexDigit (n : BitVec 4) : Char :=
  if n.toNat < 10 then Char.ofNat (0x30 + n.toNat) else Char.ofNat (0x61 + (n.toNat - 10))

/-- The two characters of a byte, the high nibble first (R117). -/
def hexByte (b : Byte) : List Char := [hexDigit (b.extractLsb' 4 4), hexDigit (b.extractLsb' 0 4)]

/-- `hex40` (R117): the 40-character lowercase hexadecimal string, as its list of characters. The host forms it. -/
def hex40 (h : HashState) : List Char := (digestBytes h).flatMap hexByte

end Sys2Proof.Machine
end

