-- ==== Sys2Proof/Machine/Dispatch.lean ====
section
/-! DEFINITION. The dispatch of a decoded command to its meaning (R61). -/

namespace Sys2Proof.Machine

def exec (i : Instr) (s : State) : Host.Outcome State Fault Refusal :=
  match i with
  | .init => Sys2Proof.Machine.execInit s
  | .updb d => Sys2Proof.Machine.execUpdb d s
  | .final => Sys2Proof.Machine.execFinal s
  | .rdr r => Sys2Proof.Machine.execRdr r s

end Sys2Proof.Machine
end

