-- ==== Sys2Proof/Machine/Port.lean ====
section
/-! DEFINITION. The command port (R62, R65): taking the host's next event, and the reset event (R140). -/

namespace Sys2Proof.Machine

/-- The host's next event, with the state in which it has been taken; none while the host presents nothing. -/
def fetch (s : State) : Option (HostEvent × State) :=
  match s.inbox with
  | [] => none
  | e :: rest => some (e, { s with inbox := rest })

/-- The reset event (R140, R141): the state of R31, and no response. -/
def resetEvent (s : State) : State := s.initialise

/-- Place an event as the host's next one. -/
def State.present (s : State) (e : HostEvent) : State := { s with inbox := e :: s.inbox }

/-- The input ports of R62 before a step: `rst`, and `cmd` while `cmd_valid` is 1. -/
structure InPorts where
  rst : Bool
  cmd : Option CmdWord
  deriving DecidableEq, Repr

/-- What the host drives on the input ports: its next event (R62). -/
def State.inPorts (s : State) : InPorts :=
  match s.inbox with
  | [] => ⟨false, none⟩
  | .reset :: _ => ⟨true, none⟩
  | .command w :: _ => ⟨false, some w⟩

/-- The output ports of R62: `cmd_ready`, and `rsp` while `rsp_valid` is 1. -/
structure OutPorts where
  cmdReady : Bool
  rsp : Option RspWord
  deriving DecidableEq, Repr

/-- The output ports after a step from `s` to `t`: the response transaction of that step, if it made one. A step ends
with its response, so between steps the port is ready (R9, R62). -/
def outPorts (s t : State) : OutPorts :=
  ⟨true, t.responses[s.responses.length]?.map Response.word⟩

/-- The position in the run that R28 names, as an index into the host's command sequence: one more after every command,
whatever its response code. It is no hardware state and no rule depends on it. -/
def State.position (s : State) : Nat := s.responses.length

end Sys2Proof.Machine
end

