-- ==== Sys2Proof/Machine/Step.lean ====
section
/-! DEFINITION. One step (R9, R61): take the host's next event and perform all of it. -/

namespace Sys2Proof.Machine

/-- A command word taken from the port (R61): legality first, then the command's own rule. -/
def runCommand (w : CmdWord) (s : State) : Result :=
  match decode w with
  | .instr i => exec i s
  | .illegal _ => raise .eillegal s

/-- One step. With no event pending the block waits for the host and nothing changes (R140, R9; log 1). -/
def step (s : State) : Host.Outcome State Fault Refusal :=
  match fetch s with
  | none => .next s
  | some (.reset, s') => .next (resetEvent s')
  | some (.command w, s') => runCommand w s'

/-- `s` with the command word `w` as the host's next event: SHA1CORE fetches from no memory (R65), so this is where a
step takes its command from (log 1). The bits above `nbits` are 0. -/
def State.withFetchWord (s : State) (nbits w : Nat) : State :=
  s.present (.command (BitVec.ofNat 16 (w % 2 ^ nbits)))

end Sys2Proof.Machine
end

