-- ==== Sys2Proof/Machine/Message.lean ====
section
/-! DEFINITION. The host's side of hashing: chunks and one-shot hashing as command sequences (R64, R99, R103), and the
hash of a whole message as a function of its bytes, which the command sequences are compared with (R32 (d), R102). -/

namespace Sys2Proof.Machine

/-- The commands as the host presents them. -/
def commandsOf (is : List Instr) : List HostEvent := is.map fun i => .command (encode i)

/-- `update(bytes)` (R99): one UPDB per byte, in order; an empty chunk is no command. -/
def updateInstrs (bs : List Byte) : List Instr := bs.map .updb

/-- RDDIGEST (R64). -/
def rdDigestInstrs : List Instr := [.rdr .h0, .rdr .h1, .rdr .h2, .rdr .h3, .rdr .h4]

/-- RDLEN (R64). -/
def rdLenInstrs : List Instr := [.rdr .lenh, .rdr .lenl]

/-- One-shot hashing (R103): INIT, the message, FINAL, then the five digest words. -/
def sha1Instrs (M : List Byte) : List Instr := .init :: (updateInstrs M ++ .final :: rdDigestInstrs)

/-- Fold `compress` over the first `k` blocks of a byte sequence, in order (R48, R32 (d)). -/
def foldBlocks : Nat → HashState → List Byte → HashState
  | 0, S, _ => S
  | k + 1, S, B => foldBlocks k (compress S (B.take 64)) (B.drop 64)

/-- The bit length of a message of n bytes as LEN holds it, 8n mod 2^64 (R32 (d), R104). -/
def bitLength (M : List Byte) : LenWord := BitVec.ofNat 64 (8 * M.length)

/-- A message with its padding (R100 applied to a whole message). -/
def padMessage (M : List Byte) : List Byte :=
  M ++ [0x80#8] ++ zeros (padZeros (M.length % 64)) ++ be64 (bitLength M)

/-- The number of compressions of a message of n bytes (R102). -/
def compressionCount (n : Nat) : Nat := (n + 8) / 64 + 1

/-- The chaining value after the completed blocks of a message (R32 (d)). -/
def chainingValue (M : List Byte) : HashState := foldBlocks (M.length / 64) iv M

/-- The hash of a message: `compress` folded over all blocks of the padded message, from IV (R32 (d), R101, R102). -/
def sha1 (M : List Byte) : HashState := foldBlocks (compressionCount M.length) iv (padMessage M)

/-- The message (R12): the data bytes of the UPDB commands accepted since the last INIT or reset, followed through one
event taken in a state whose flag FIN is `fin`. -/
def messageAfter (M : List Byte) (fin : Bool) : HostEvent → List Byte
  | .reset => []
  | .command w =>
    match decode w with
    | .instr .init => []
    | .instr (.updb d) => if fin then M else M ++ [d]
    | .instr .final => M
    | .instr (.rdr _) => M
    | .illegal _ => M

end Sys2Proof.Machine
end

