-- ==== Sys2Proof/Machine/Assembler.lean ====
section
/-! DEFINITION. The assembler's syntax and pseudo-instructions (R63, R64): from a source line to command words, and
from text to source lines. It is a tool of the host and no part of SHA1CORE (D22). -/

namespace Sys2Proof.Machine

/-- The byte that a literal stands for: a number as it is, a character by its ASCII code (R63). -/
def byteOf : ByteLit → Byte
  | .num n => BitVec.ofNat 8 n
  | .chr c => BitVec.ofNat 8 c.toNat

/-- The register that a literal stands for (R63). -/
def regOf : RegLit → Reg
  | .num n => Reg.ofNumber (BitVec.ofNat 3 n)
  | .name r => r

/-- The bytes of an ASCII text, first character first (R64). -/
def textBytes (text : List Char) : List Byte := text.map fun c => BitVec.ofNat 8 c.toNat

/-- The words of a line (R63), a pseudo-instruction expanded (R64). -/
def AsmLine.words : AsmLine → List CmdWord
  | .init => [encode .init]
  | .updb b => [encode (.updb (byteOf b))]
  | .final => [encode .final]
  | .rdr r => [encode (.rdr (regOf r))]
  | .word v => [BitVec.ofNat 16 v]
  | .updateText text => (updateInstrs (textBytes text)).map encode
  | .updateBytes bs => (updateInstrs (bs.map byteOf)).map encode
  | .fill b count => (updateInstrs (List.replicate count (byteOf b))).map encode
  | .rddigest => rdDigestInstrs.map encode
  | .rdlen => rdLenInstrs.map encode
  | .sha1 text => (sha1Instrs (textBytes text)).map encode

/-- A line that is not well-formed assembles to nothing (R63). -/
def assemble (l : AsmLine) : Option (List CmdWord) := if AsmLine.wellFormed l then some (AsmLine.words l) else none

/-- A program: the words of its lines in order, when every line is well-formed. -/
def assembleAll : List AsmLine → Option (List CmdWord)
  | [] => some []
  | l :: ls => (assemble l).bind fun ws => (assembleAll ls).map fun rest => ws ++ rest

/-- The tokens of a line. -/
inductive Token
  | word (cs : List Char)
  | chr (c : Char)
  | text (cs : List Char)
  | comma
  deriving DecidableEq, Repr

/-- Whether the scanner stands in a text; each keeps the characters read so far, last first. -/
inductive LexMode
  | code (cur : List Char)
  | text (cur : List Char)
  deriving DecidableEq, Repr

/-- Characters that only separate tokens (DESIGN CHOICE, log 13). -/
def isBlank (c : Char) : Bool := c == ' ' || c == '\t' || c == '\r'

/-- Close the word read so far, if there is one. -/
def flushWord (cur : List Char) (rest : List Token) : List Token :=
  if cur.isEmpty then rest else .word cur.reverse :: rest

/-- The tokens of one line; `;` starts a comment except inside quotes (R63, log 13). None for an unclosed text. -/
def tokenize : LexMode → List Char → Option (List Token)
  | .code cur, [] => some (flushWord cur [])
  | .text _, [] => none
  | .code cur, ';' :: _ => some (flushWord cur [])
  | .code cur, ',' :: cs => (tokenize (.code []) cs).map fun ts => flushWord cur (.comma :: ts)
  | .code cur, '"' :: cs => (tokenize (.text []) cs).map fun ts => flushWord cur ts
  | .code cur, '\'' :: c :: '\'' :: cs => (tokenize (.code []) cs).map fun ts => flushWord cur (.chr c :: ts)
  | .code cur, c :: cs =>
    if isBlank c then (tokenize (.code []) cs).map fun ts => flushWord cur ts else tokenize (.code (c :: cur)) cs
  | .text cur, '"' :: cs => (tokenize (.code []) cs).map fun ts => .text cur.reverse :: ts
  | .text cur, c :: cs => tokenize (.text (c :: cur)) cs

/-- The value of a digit, either case for the letters (DESIGN CHOICE, log 13). -/
def digitValue (c : Char) : Option Nat :=
  let n := c.toNat
  if 0x30 ≤ n ∧ n ≤ 0x39 then some (n - 0x30)
  else if 0x41 ≤ n ∧ n ≤ 0x46 then some (n - 0x41 + 10)
  else if 0x61 ≤ n ∧ n ≤ 0x66 then some (n - 0x61 + 10)
  else none

/-- The number that digits of base `base` add to `acc`; none at a character that is no digit of the base.
DESIGN CHOICE (log 13): any number of digits, leading zeros among them. -/
def digitsValue (base : Nat) : Nat → List Char → Option Nat
  | acc, [] => some acc
  | acc, c :: cs =>
    match digitValue c with
    | some d => if d < base then digitsValue base (base * acc + d) cs else none
    | none => none

/-- A number: `0x` and hexadecimal digits, else decimal digits (R6). DESIGN CHOICE (log 13): R6 and R63 give no number
of digits; one or more are a number, and leading zeros do not change its value (`0x1`, `0x0061`, `007`). -/
def parseNumber : List Char → Option Nat
  | [] => none
  | '0' :: 'x' :: [] => none
  | '0' :: 'x' :: d :: ds => digitsValue 16 0 (d :: ds)
  | d :: ds => digitsValue 10 0 (d :: ds)

/-- A byte operand (R63). -/
def parseByte : Token → Option ByteLit
  | .word cs => (parseNumber cs).map .num
  | .chr c => some (.chr c)
  | .text _ => none
  | .comma => none

/-- The name of a register, upper case (R63). -/
def regNames : List (List Char × Reg) :=
  [("H0".toList, .h0), ("H1".toList, .h1), ("H2".toList, .h2), ("H3".toList, .h3), ("H4".toList, .h4),
   ("LENH".toList, .lenh), ("LENL".toList, .lenl), ("STATUS".toList, .status)]

/-- A register operand (R63). -/
def parseReg (cs : List Char) : Option RegLit :=
  match regNames.find? fun p => p.1 = cs with
  | some p => some (.name p.2)
  | none => (parseNumber cs).map .num

/-- Bytes separated by commas (R64), one at least (DESIGN CHOICE, log 13). -/
def parseBytes : List Token → Option (List ByteLit)
  | [] => none
  | [t] => (parseByte t).map fun b => [b]
  | t :: .comma :: ts => (parseByte t).bind fun b => (parseBytes ts).map fun bs => b :: bs
  | _ :: _ :: _ => none

/-- The operands of a mnemonic (R63, R64). -/
def parseOperands (mnemonic : List Char) (args : List Token) : Option AsmLine :=
  if mnemonic = "INIT".toList then if args = [] then some .init else none
  else if mnemonic = "UPDB".toList then
    match args with
    | [t] => (parseByte t).map .updb
    | _ => none
  else if mnemonic = "FINAL".toList then if args = [] then some .final else none
  else if mnemonic = "RDR".toList then
    match args with
    | [.word cs] => (parseReg cs).map .rdr
    | _ => none
  else if mnemonic = ".word".toList then
    match args with
    | [.word cs] => (parseNumber cs).map .word
    | _ => none
  else if mnemonic = "UPDATE".toList then
    match args with
    | [.text cs] => some (.updateText cs)
    | _ => (parseBytes args).map .updateBytes
  else if mnemonic = "FILL".toList then
    match args with
    | [t, .comma, .word cs] => (parseByte t).bind fun b => (parseNumber cs).map fun n => .fill b n
    | _ => none
  else if mnemonic = "RDDIGEST".toList then if args = [] then some .rddigest else none
  else if mnemonic = "RDLEN".toList then if args = [] then some .rdlen else none
  else if mnemonic = "SHA1".toList then
    match args with
    | [.text cs] => some (.sha1 cs)
    | _ => none
  else none

/-- One line of text: no command for a line that is blank or only a comment; none for a line that is no source line. -/
def parseLine (line : List Char) : Option (List AsmLine) :=
  match tokenize (.code []) line with
  | none => none
  | some [] => some []
  | some (.word m :: args) => (parseOperands m args).map fun l => [l]
  | some (.chr _ :: _) => none
  | some (.text _ :: _) => none
  | some (.comma :: _) => none

/-- The source lines of a program text, one command per line (R63); none when one line is no source line (DESIGN CHOICE,
log 13). -/
def parseProgram (src : List Char) : Option (List AsmLine) :=
  ((src.splitOn '\n').mapM parseLine).map List.flatten

end Sys2Proof.Machine
end

