-- ==== Sys2Proof/Safety.lean ====
section
/-! DEFINITION. What claims about SHA1CORE use: the invariants of R32, the end of a run (R149), and what two states
share when only an unread part differs. -/

namespace Sys2Proof.Machine

/-- The buffer lists exactly the valid slots BUF[0..BUFLEN) in canonical form (R22, log 3). -/
def Buffer.exact (m : Memory) (n : Nat) : Prop := m.wf ∧ ∀ a, (m.read a).isSome ↔ a < n

/-- The invariant of R32 (b) with the form of the buffer of R22. R32 (a) holds by BUFLEN's six bits. -/
structure State.Inv (s : State) : Prop where
  buffer : Buffer.exact s.buf s.buflen.toNat
  length : s.len.toNat % 512 = 8 * s.buflen.toNat

/-- R32 (d): the state holds the message `M`. Its last clause says what the digest is while FIN = 1 (R115). -/
structure State.Holds (s : State) (M : List Byte) : Prop where
  len : s.len = bitLength M
  fill : s.buflen.toNat = M.length % 64
  wf : s.buf.wf
  slots : ∀ a, s.buf.read a = (M.drop (64 * (M.length / 64)))[a]?
  chaining : s.fin = false → s.h = chainingValue M
  digest : s.fin = true → s.h = sha1 M

/-- A run has obtained a digest exactly when FIN = 1 at its end (R149). -/
def State.hasDigest (s : State) : Bool := s.fin

/-- A run was free of misuse exactly when every response code was OK (R149, R127). -/
def State.noMisuse (s : State) : Bool := s.responses.all fun r => r.code = .ok

/-- The states agree on everything but invalid buffer slots (R22: no rule reads those). -/
structure SameButStale (s t : State) : Prop where
  h : s.h = t.h
  buflen : s.buflen = t.buflen
  len : s.len = t.len
  fin : s.fin = t.fin
  err : s.err = t.err
  inbox : s.inbox = t.inbox
  responses : s.responses = t.responses
  valid : ∀ a, a < s.buflen.toNat → s.buf.slot a = t.buf.slot a

/-- The event is one of the exceptions' causes of R120 in a state whose flag FIN is `fin`: an illegal word (R122), or
UPDB or FINAL while FIN = 1 (R121). -/
def causesException (w : CmdWord) (fin : Bool) : Prop :=
  legalWord w = false ∨ (fin = true ∧ ((∃ d, w = encode (.updb d)) ∨ w = encode .final))

/-- The values of R31: the constants, an empty buffer, a zero counter, both flags 0, and no valid slot. -/
structure State.AtReset (s : State) : Prop where
  h0 : s.h.h0 = 0x67452301#32
  h1 : s.h.h1 = 0xEFCDAB89#32
  h2 : s.h.h2 = 0x98BADCFE#32
  h3 : s.h.h3 = 0x10325476#32
  h4 : s.h.h4 = 0xC3D2E1F0#32
  buflen : s.buflen = 0
  len : s.len = 0
  fin : s.fin = false
  err : s.err = false
  noSlot : ∀ a, s.buf.read a = none

/-- The flags, the counters and the five hash words of the two states are the same, and so is every slot of BUF. -/
structure SameHasher (s t : State) : Prop where
  h : t.h = s.h
  buflen : t.buflen = s.buflen
  len : t.len = s.len
  fin : t.fin = s.fin
  slots : ∀ a, t.buf.read a = s.buf.read a

end Sys2Proof.Machine
end

