-- ==== Sys2Proof/Certificates/Slice0/Obligations.lean ====
section
/-! DEFINITION. The statements about SHA1CORE for the provers. Each docstring names the rule of spec/ that it
formalises; a statement that rests on a choice of the model names the log entry. -/

open Sys2Proof Sys2Proof.Machine

/-! Encoding -/

/-- R60 with R57 and R58: the decoder and the encoder are inverse to each other, both ways, on every word and with
every operand at every value its field admits. -/
def Obligations.DecodeAndEncodeAreInverse : Prop :=
  ∀ (w : CmdWord) (i : Instr), decode w = .instr i ↔ w = encode i

/-- R57: a word is decoded to a command of a row exactly when its bits under the row's mask equal the row's match. -/
def Obligations.DecodeFollowsMaskAndMatch : Prop :=
  ∀ (w : CmdWord) (i : Instr), w &&& i.row.mask = i.row.pattern ↔ ∃ j, decode w = .instr j ∧ j.row = i.row

/-- R59: a word is illegal exactly in the cases (a) to (d), written over its value as a number (OP = w / 4096,
RSV = w / 256 mod 16, ARG = w mod 256); and an illegal word changes no state but ERR and responds (EILLEGAL, 0). -/
def Obligations.IllegalWordsAreTheFourCasesAndOnlySetErr : Prop :=
  (∀ w : CmdWord, (∃ why, decode w = .illegal why) ↔
    (w.toNat / 4096 = 0 ∨ 5 ≤ w.toNat / 4096) ∨
    w.toNat / 256 % 16 ≠ 0 ∨
    ((w.toNat / 4096 = 1 ∨ w.toNat / 4096 = 3) ∧ w.toNat % 256 ≠ 0) ∨
    (w.toNat / 4096 = 4 ∧ w.toNat % 256 / 8 ≠ 0)) ∧
  ∀ (s : State) (w : CmdWord) (rest : List HostEvent) (why : Illegal),
    s.inbox = .command w :: rest → decode w = .illegal why →
    step s = .next { s with inbox := rest, err := true, responses := s.responses ++ [⟨.eillegal, 0⟩] }

/-- R57, R60: words written out from the opcode map, one of each command and neighbours that are illegal (V16). -/
def Obligations.WordsOfTheOpcodeMapDecode : Prop :=
  decode 0b0001000000000000#16 = .instr .init ∧
  decode 0b0010000001100001#16 = .instr (.updb 0x61) ∧
  decode 0b0011000000000000#16 = .instr .final ∧
  decode 0b0100000000000111#16 = .instr (.rdr .status) ∧
  decode 0b0100000000001000#16 = .illegal .register ∧
  decode 0b0010000101100001#16 = .illegal .reservedBits ∧
  decode 0b0011000000000001#16 = .illegal .operand ∧
  decode 0b0000000000000000#16 = .illegal .opcode

/-- R61: when the host's next event is a word that decodes to a command, the step is that command's meaning in the
state in which the event has been taken; and the word placed by `withFetchWord` is that event (log 1). -/
def Obligations.StepRunsTheDecodedCommand : Prop :=
  (∀ (s : State) (w : CmdWord) (rest : List HostEvent) (i : Instr),
    s.inbox = .command w :: rest → decode w = .instr i → step s = exec i { s with inbox := rest }) ∧
  ∀ (s : State) (w : Nat) (i : Instr),
    decodeTableWord 16 w = some i → step (s.withFetchWord 16 w) = exec i s

/-- R63: each command line assembles to the word of its row of the syntax table, with every operand that the row
allows; and every well-formed line but `.word`, a pseudo-instruction too, assembles to legal words only. -/
def Obligations.AssemblerEmitsTheCommandWords : Prop :=
  assemble .init = some [0x1000] ∧
  (∀ n : Nat, n ≤ 255 → assemble (.updb (.num n)) = some [BitVec.ofNat 16 (0x2000 + n)]) ∧
  (∀ c : Char, 0x20 ≤ c.toNat → c.toNat ≤ 0x7E →
    assemble (.updb (.chr c)) = some [BitVec.ofNat 16 (0x2000 + c.toNat)]) ∧
  assemble .final = some [0x3000] ∧
  (∀ n : Nat, n ≤ 7 → assemble (.rdr (.num n)) = some [BitVec.ofNat 16 (0x4000 + n)]) ∧
  [Reg.h0, .h1, .h2, .h3, .h4, .lenh, .lenl, .status].map (fun r => assemble (.rdr (.name r))) =
    [some [0x4000], some [0x4001], some [0x4002], some [0x4003], some [0x4004], some [0x4005], some [0x4006],
      some [0x4007]] ∧
  (∀ v : Nat, v < 65536 → ∃ w : CmdWord, assemble (.word v) = some [w] ∧ w.toNat = v) ∧
  ∀ (l : AsmLine) (ws : List CmdWord), assemble l = some ws → (∀ v, l ≠ .word v) → ∀ w ∈ ws, legalWord w = true

/-- R64: the words that each pseudo-instruction expands to, in their order, with every operand it allows: one UPDB per
byte of UPDATE's text or list, first byte first; `count` copies of FILL's UPDB; RDR 0 to 4; RDR 5 and 6; and INIT, the
text's bytes, FINAL and RDR 0 to 4 for SHA1. -/
def Obligations.PseudoInstructionsExpandToTheirCommands : Prop :=
  (∀ text : List Char, asciiText text = true →
    assemble (.updateText text) = some (text.map fun c => BitVec.ofNat 16 (0x2000 + c.toNat)) ∧
    assemble (.sha1 text) =
      some (0x1000 :: ((text.map fun c => BitVec.ofNat 16 (0x2000 + c.toNat)) ++
        [0x3000, 0x4000, 0x4001, 0x4002, 0x4003, 0x4004]))) ∧
  (∀ bs : List ByteLit, bs.all ByteLit.wellFormed = true →
    assemble (.updateBytes bs) =
      some (bs.map fun b => BitVec.ofNat 16 (0x2000 + match b with | .num n => n | .chr c => c.toNat))) ∧
  (∀ n count : Nat, n ≤ 255 →
    assemble (.fill (.num n) count) = some (List.replicate count (BitVec.ofNat 16 (0x2000 + n)))) ∧
  (∀ (c : Char) (count : Nat), 0x20 ≤ c.toNat → c.toNat ≤ 0x7E →
    assemble (.fill (.chr c) count) = some (List.replicate count (BitVec.ofNat 16 (0x2000 + c.toNat)))) ∧
  assemble .rddigest = some [0x4000, 0x4001, 0x4002, 0x4003, 0x4004] ∧
  assemble .rdlen = some [0x4005, 0x4006]

/-! The compression engine -/

/-- R72: bit i of rotl(n, b) is bit (i - b) mod 32 of n, and the value is the formula of R72, for 0 < b < 32. -/
def Obligations.RotlMovesEachBit : Prop :=
  ∀ (n : Word) (b : Nat) (hb : 0 < b ∧ b < 32),
    (∀ i, i < 32 → (rotl n b hb).getLsbD i = n.getLsbD ((i + 32 - b) % 32)) ∧
    (rotl n b hb).toNat = (n.toNat * 2 ^ b % 2 ^ 32) ||| (n.toNat / 2 ^ (32 - b))

/-- R87: the two forms of the first round function are equal. -/
def Obligations.FirstRoundFunctionHasTheStandardForm : Prop :=
  ∀ b c d : Word, fCh b c d = (b &&& c) ||| (~~~b &&& d)

/-- R74, R75: the schedule has eighty words; the first sixteen are the block's big-endian words, each later one is the
recurrence over four earlier ones. -/
def Obligations.ScheduleFollowsTheRecurrence : Prop :=
  ∀ B : List Byte, B.length = 64 →
    (schedule B).length = 80 ∧
    (∀ j, j < 16 → (wordAt (schedule B) j).toNat =
      (byteAt B (4 * j)).toNat * 2 ^ 24 + (byteAt B (4 * j + 1)).toNat * 2 ^ 16 +
      (byteAt B (4 * j + 2)).toNat * 2 ^ 8 + (byteAt B (4 * j + 3)).toNat) ∧
    ∀ i, 16 ≤ i → i < 80 → wordAt (schedule B) i =
      rotl (wordAt (schedule B) (i - 3) ^^^ wordAt (schedule B) (i - 8) ^^^
        wordAt (schedule B) (i - 14) ^^^ wordAt (schedule B) (i - 16)) 1

/-- R82 with R76 to R80: one round; the sum is taken over the integers and reduced mod 2^32, the function and the
constant are chosen by the round index alone. -/
def Obligations.RoundUpdatesTheWorkingVariables : Prop :=
  ∀ (t : Nat) (w : Word) (v : Vars), t < 80 →
    (oneRound t w v).a.toNat =
      ((rotl v.a 5).toNat +
        (if t < 20 then v.d ^^^ (v.b &&& (v.c ^^^ v.d))
         else if 40 ≤ t ∧ t < 60 then (v.b &&& v.c) ||| (v.b &&& v.d) ||| (v.c &&& v.d)
         else v.b ^^^ v.c ^^^ v.d).toNat +
        v.e.toNat + [0x5A827999, 0x6ED9EBA1, 0x8F1BBCDC, 0xCA62C1D6].getD (t / 20) 0 + w.toNat) % 2 ^ 32 ∧
    (oneRound t w v).b = v.a ∧ (oneRound t w v).c = rotl v.b 30 ∧ (oneRound t w v).d = v.c ∧ (oneRound t w v).e = v.d

/-- R84 with R81 and R83: `compress` runs all eighty rounds in increasing index from the input state and adds the
working variables back mod 2^32. -/
def Obligations.CompressRunsEightyRoundsAndAddsBack : Prop :=
  ∀ (S : HashState) (B : List Byte), B.length = 64 →
    ∃ v : Vars,
      v = (List.range 80).foldl (fun v t => oneRound t (wordAt (schedule B) t) v) ⟨S.h0, S.h1, S.h2, S.h3, S.h4⟩ ∧
      (compress S B).h0.toNat = (S.h0.toNat + v.a.toNat) % 2 ^ 32 ∧
      (compress S B).h1.toNat = (S.h1.toNat + v.b.toNat) % 2 ^ 32 ∧
      (compress S B).h2.toNat = (S.h2.toNat + v.c.toNat) % 2 ^ 32 ∧
      (compress S B).h3.toNat = (S.h3.toNat + v.d.toNat) % 2 ^ 32 ∧
      (compress S B).h4.toNat = (S.h4.toNat + v.e.toNat) % 2 ^ 32

/-- R88: the sixteen-word window computes the same function. -/
def Obligations.WindowedEngineEqualsCompress : Prop :=
  ∀ (S : HashState) (B : List Byte), B.length = 64 → compressWindow S B = compress S B

/-- R90: through its packed ports the engine computes `compress`; `block` holds w[0] in its most significant 32 bits,
the state ports hold s0 in theirs. -/
def Obligations.PackedEngineComputesCompress : Prop :=
  ∀ (S : HashState) (B : List Byte), B.length = 64 →
    engine (packState S) (packBlock B) = packState (compress S B) ∧
    (∀ j, j < 16 → (packBlock B).extractLsb' (480 - 32 * j) 32 = wordBE B j) ∧
    (packState S).extractLsb' 128 32 = S.h0 ∧ (packState S).extractLsb' 96 32 = S.h1 ∧
    (packState S).extractLsb' 64 32 = S.h2 ∧ (packState S).extractLsb' 32 32 = S.h3 ∧
    (packState S).extractLsb' 0 32 = S.h4

/-! The commands: result, frame and completion -/

/-- R31, R140: the reset state, the state after the reset event and the state after INIT hold the values of R31. The
reset event takes nothing else from the host and produces no response (log 2). -/
def Obligations.ResetAndInitLoadTheResetValues : Prop :=
  State.reset.AtReset ∧
  (∀ s : State, ∃ t, exec .init s = .next t ∧ t.AtReset) ∧
  ∀ (s : State) (rest : List HostEvent), s.inbox = .reset :: rest →
    ∃ t, step s = .next t ∧ t.AtReset ∧ t.inbox = rest ∧ t.responses = s.responses

/-- R96: INIT completes in every state, whatever the phase and ERR, loads the reset values, and responds (OK, 0). -/
def Obligations.InitCompletesInEveryState : Prop :=
  ∀ s : State, ∃ t, exec .init s = .next t ∧ t.AtReset ∧ t.inbox = s.inbox ∧
    t.responses = s.responses ++ [⟨.ok, 0⟩]

/-- R97: UPDB. In phase FINALIZED it raises ESTATE and changes only ERR; in phase ACTIVE it completes, counts 8 bits
mod 2^64, stores its byte at slot BUFLEN and nowhere else, and drains the block when the byte is the 64th. -/
def Obligations.UpdbAppendsAByteAndDrainsAFullBlock : Prop :=
  ∀ (d : Byte) (s : State),
    (s.fin = true →
      exec (.updb d) s = .next { s with err := true, responses := s.responses ++ [⟨.estate, 0⟩] }) ∧
    (s.fin = false → ∃ t, exec (.updb d) s = .next t ∧
      t.len.toNat = (s.len.toNat + 8) % 2 ^ 64 ∧
      t.fin = false ∧ t.err = s.err ∧ t.inbox = s.inbox ∧ t.responses = s.responses ++ [⟨.ok, 0⟩] ∧
      (s.buflen.toNat + 1 < 64 →
        t.h = s.h ∧ t.buflen.toNat = s.buflen.toNat + 1 ∧
        t.buf.read s.buflen.toNat = some d ∧ ∀ a, a ≠ s.buflen.toNat → t.buf.read a = s.buf.read a) ∧
      (s.buflen.toNat + 1 = 64 →
        t.h = compress s.h (memRead s.buf 0 63 ++ [d]) ∧ t.buflen = 0 ∧ ∀ a, t.buf.read a = none))

/-- R101: FINAL. In phase FINALIZED it raises ESTATE and changes only ERR; in phase ACTIVE it completes, compresses
the padded tail (one block for BUFLEN up to 55, two above), sets FIN and leaves LEN, BUFLEN, BUF and ERR as they are. -/
def Obligations.FinalCompressesThePaddedTail : Prop :=
  ∀ s : State,
    (s.fin = true → exec .final s = .next { s with err := true, responses := s.responses ++ [⟨.estate, 0⟩] }) ∧
    (s.fin = false → ∃ t, exec .final s = .next t ∧
      (s.buflen.toNat ≤ 55 →
        t.h = compress s.h (memRead s.buf 0 s.buflen.toNat ++ [0x80#8] ++ zeros (55 - s.buflen.toNat) ++ be64 s.len)) ∧
      (56 ≤ s.buflen.toNat →
        t.h = compress (compress s.h (memRead s.buf 0 s.buflen.toNat ++ [0x80#8] ++ zeros (63 - s.buflen.toNat)))
          (zeros 56 ++ be64 s.len)) ∧
      t.fin = true ∧ t.err = s.err ∧ t.len = s.len ∧ t.buflen = s.buflen ∧
      (∀ a, t.buf.read a = s.buf.read a) ∧
      t.inbox = s.inbox ∧ t.responses = s.responses ++ [⟨.ok, 0⟩])

/-- R100: the shape of the padded tail: one block for n up to 55, two above; the data, 0x80, zero bytes, and the
length as eight big-endian bytes at the end. -/
def Obligations.PadIsOneOrTwoBlocks : Prop :=
  ∀ (m : Memory) (n : Nat) (L : LenWord), n < 64 →
    (n ≤ 55 → (pad m n L).length = 64) ∧
    (56 ≤ n → (pad m n L).length = 128) ∧
    (∀ i, i < n → (pad m n L)[i]? = some (m.slot i)) ∧
    (pad m n L)[n]? = some 0x80#8 ∧
    (∀ i, n < i → i + 8 < (pad m n L).length → (pad m n L)[i]? = some 0#8) ∧
    ∀ j, j < 8 → (pad m n L)[(pad m n L).length - 8 + j]? = some (BitVec.ofNat 8 (L.toNat / 2 ^ (8 * (7 - j))))

/-- R42: in the last block of the tail, w[14] is LEN[63:32] and w[15] is LEN[31:0]. -/
def Obligations.LengthFieldIsTheLastTwoWords : Prop :=
  ∀ (m : Memory) (n : Nat) (L : LenWord), n < 64 →
    (wordBE ((pad m n L).drop ((pad m n L).length - 64)) 14).toNat = L.toNat / 2 ^ 32 ∧
    (wordBE ((pad m n L).drop ((pad m n L).length - 64)) 15).toNat = L.toNat % 2 ^ 32

/-- R110 with R27, R112: RDR completes in every state, responds (OK, the register's value) and changes nothing else;
STATUS is FIN + 2 ERR + 256 BUFLEN. -/
def Obligations.RdrReturnsTheRegisterAndChangesNothing : Prop :=
  ∀ (r : Reg) (s : State), ∃ v : Word,
    exec (.rdr r) s = .next { s with responses := s.responses ++ [⟨.ok, v⟩] } ∧
    (r = .h0 → v = s.h.h0) ∧ (r = .h1 → v = s.h.h1) ∧ (r = .h2 → v = s.h.h2) ∧ (r = .h3 → v = s.h.h3) ∧
    (r = .h4 → v = s.h.h4) ∧
    (r = .lenh → v.toNat = s.len.toNat / 2 ^ 32) ∧
    (r = .lenl → v.toNat = s.len.toNat % 2 ^ 32) ∧
    (r = .status → v.toNat = s.fin.toNat + 2 * s.err.toNat + 256 * s.buflen.toNat)

/-! Exceptions and responses -/

/-- R120, R121, R122, R124: the response to a command is ESTATE exactly for a well-formed UPDB or FINAL while FIN = 1,
EILLEGAL exactly for an illegal word whatever the phase, and OK otherwise. -/
def Obligations.ExceptionsHaveExactlyTheirCauses : Prop :=
  ∀ (s : State) (w : CmdWord) (rest : List HostEvent), s.inbox = .command w :: rest →
    ∃ t r, step s = .next t ∧ t.responses = s.responses ++ [r] ∧
      (r.code = .estate ↔ s.fin = true ∧ ((∃ d, w = encode (.updb d)) ∨ w = encode .final)) ∧
      (r.code = .eillegal ↔ ∀ i, w ≠ encode i)

/-- R125: a command that ends with an exception sets ERR, responds with DATA 0, and changes nothing else. -/
def Obligations.ExceptionsArePrecise : Prop :=
  ∀ (s t : State) (w : CmdWord) (rest : List HostEvent) (r : Response),
    s.inbox = .command w :: rest → step s = .next t → t.responses = s.responses ++ [r] → r.code ≠ .ok →
    SameHasher s t ∧ t.err = true ∧ t.inbox = rest ∧ r.data = 0

/-- R56: every command produces exactly one response; its CODE field is 0, 1 or 2 and its DATA field is the register
value for an RDR and 0 for every other word; it is the one response transaction on the output port (R62). -/
def Obligations.EveryCommandGetsOneResponse : Prop :=
  ∀ (s : State) (w : CmdWord) (rest : List HostEvent), s.inbox = .command w :: rest →
    ∃ t r, step s = .next t ∧ t.inbox = rest ∧ t.responses = s.responses ++ [r] ∧
      (outPorts s t).rsp = some r.word ∧ r.word.toNat / 2 ^ 32 < 3 ∧ r.word.toNat % 2 ^ 32 = r.data.toNat ∧
      (r.word.toNat / 2 ^ 32 = 0 ↔ r.code = .ok) ∧ (r.word.toNat / 2 ^ 32 = 1 ↔ r.code = .estate) ∧
      (∀ reg, w = encode (.rdr reg) → r.code = .ok ∧ r.data = s.regValue reg) ∧
      ((∀ reg, w ≠ encode (.rdr reg)) → r.data = 0)

/-- R148: every step answers a next state, in every state. (That a step with no event pending changes nothing is the
model's choice, log 1.) -/
def Obligations.EveryStepAnswersANextState : Prop :=
  ∀ s : State, ∃ t, step s = .next t ∧ (s.inbox = [] → t = s) ∧ t.inbox = s.inbox.tail ∧
    s.responses.length ≤ t.responses.length ∧ t.responses.length ≤ s.responses.length + 1

/-- R149, R127: a run stays free of misuse, by its response codes, exactly while no command causes an exception;
unlike ERR, this record is not cleared by INIT. -/
def Obligations.NoMisuseIsLostExactlyByExceptions : Prop :=
  ∀ (s t : State) (w : CmdWord) (rest : List HostEvent), s.inbox = .command w :: rest → step s = .next t →
    (t.noMisuse = true ↔ s.noMisuse = true ∧ ¬causesException w s.fin)

/-! Whole-machine rules -/

/-- R24: FIN is set by FINAL and by nothing else, and cleared by INIT and by reset and by nothing else. -/
def Obligations.FinIsWrittenOnlyByFinalInitAndReset : Prop :=
  ∀ (s t : State) (e : HostEvent) (rest : List HostEvent), s.inbox = e :: rest → step s = .next t →
    ((s.fin = false ∧ t.fin = true) ↔ (s.fin = false ∧ e = .command (encode .final))) ∧
    ((s.fin = true ∧ t.fin = false) ↔ (s.fin = true ∧ (e = .command (encode .init) ∨ e = .reset)))

/-- R25: ERR is set by every exception, cleared by INIT and by reset, and otherwise stays as it is. -/
def Obligations.ErrIsStickyUntilInitOrReset : Prop :=
  ∀ (s t : State) (e : HostEvent) (rest : List HostEvent), s.inbox = e :: rest → step s = .next t →
    (e = .reset ∨ e = .command (encode .init) → t.err = false) ∧
    (∀ w, e = .command w → causesException w s.fin → t.err = true) ∧
    (∀ w, e = .command w → w ≠ encode .init → ¬causesException w s.fin → t.err = s.err)

/-- R25, R126: ERR gates nothing. Two states that differ only in ERR step to states that differ in ERR alone, but for
the response of a read of STATUS. -/
def Obligations.ErrGatesNothing : Prop :=
  ∀ (s t : State) (b : Bool), step s = .next t →
    ∃ t', step { s with err := b } = .next t' ∧
      (s.inbox.head? ≠ some (.command (encode (.rdr .status))) → t' = { t with err := t'.err }) ∧
      t' = { t with err := t'.err, responses := t'.responses }

/-- R23: LEN is written 0 by INIT and reset, LEN + 8 mod 2^64 by an accepted UPDB, and by nothing else. -/
def Obligations.LenCountsAcceptedBytesOnly : Prop :=
  ∀ (s t : State) (e : HostEvent) (rest : List HostEvent), s.inbox = e :: rest → step s = .next t →
    (e = .reset ∨ e = .command (encode .init) → t.len = 0) ∧
    (∀ d, e = .command (encode (.updb d)) → s.fin = false → t.len.toNat = (s.len.toNat + 8) % 2 ^ 64) ∧
    (e ≠ .reset → e ≠ .command (encode .init) →
      (s.fin = true ∨ ∀ d, e ≠ .command (encode (.updb d))) → t.len = s.len)

/-- R21: H0..H4 change only by INIT, by reset, by an accepted FINAL, and by an accepted UPDB whose byte completes a
block. -/
def Obligations.HashStateChangesOnlyWhenABlockIsCompressed : Prop :=
  ∀ (s t : State) (e : HostEvent) (rest : List HostEvent), s.inbox = e :: rest → step s = .next t → t.h ≠ s.h →
    e = .reset ∨ e = .command (encode .init) ∨ (s.fin = false ∧ e = .command (encode .final)) ∨
      (s.fin = false ∧ s.buflen.toNat = 63 ∧ ∃ d, e = .command (encode (.updb d)))

/-- R115, R32 (c): while FIN = 1, no event but INIT and reset changes H0..H4, LEN, BUFLEN, BUF or FIN: the digest is
immutable once produced. -/
def Obligations.DigestIsImmutableUntilInitOrReset : Prop :=
  ∀ (s t : State) (w : CmdWord) (rest : List HostEvent),
    s.fin = true → s.inbox = .command w :: rest → w ≠ encode .init → step s = .next t → SameHasher s t

/-- R22: no rule reads a buffer slot at or above BUFLEN. Two states that differ only in such slots step to states that
differ only in such slots; so no free value of BUF_STALE (log 3) can reach H, LEN, a flag or a response. -/
def Obligations.StaleSlotsAreNeverRead : Prop :=
  ∀ s s' : State, SameButStale s s' →
    ∃ t t', step s = .next t ∧ step s' = .next t' ∧ SameButStale t t'

/-! Invariants and the hash of a message -/

/-- R32 (a), (b) with the buffer's form of R22: every step keeps the invariant. -/
def Obligations.EveryStepKeepsTheInvariant : Prop :=
  ∀ s t : State, s.Inv → step s = .next t → t.Inv

/-- R32: the invariant holds at reset, and the reset state holds the empty message. -/
def Obligations.ResetMeetsTheInvariants : Prop :=
  State.reset.Inv ∧ State.reset.Holds []

/-- R32 (d), R12, R115: in every step the state keeps holding the message: LEN is its bit length, the buffer is its
last partial block, H0..H4 are its chaining value while FIN = 0 and its hash while FIN = 1. -/
def Obligations.EveryStepKeepsHoldingTheMessage : Prop :=
  ∀ (s t : State) (M : List Byte) (e : HostEvent) (rest : List HostEvent),
    s.Holds M → s.inbox = e :: rest → step s = .next t → t.Holds (messageAfter M s.fin e)

/-- R102: the padded message is (n + 8) div 64 + 1 blocks: n div 64 of them during UPDB, then one when n mod 64 is at
most 55 and two above. -/
def Obligations.PaddedMessageHasTheStatedNumberOfBlocks : Prop :=
  ∀ M : List Byte,
    (padMessage M).length = 64 * compressionCount M.length ∧
    (M.length % 64 ≤ 55 → compressionCount M.length = M.length / 64 + 1) ∧
    (56 ≤ M.length % 64 → compressionCount M.length = M.length / 64 + 2)

/-- R99: a chunk of any length, as the command sequence of its bytes, appends the chunk to the message the state
holds, one OK response per byte; two chunks are the same command sequence as their concatenation. -/
def Obligations.ChunkAppendsToTheMessage : Prop :=
  (∀ A B : List Byte,
    commandsOf (updateInstrs (A ++ B)) = commandsOf (updateInstrs A) ++ commandsOf (updateInstrs B)) ∧
  ∀ (s : State) (M C : List Byte) (rest : List HostEvent),
    s.Holds M → s.fin = false → s.inbox = commandsOf (updateInstrs C) ++ rest →
    ∃ t, Sys2Proof.core.run C.length s = .next t ∧ t.Holds (M ++ C) ∧ t.fin = false ∧ t.err = s.err ∧
      t.inbox = rest ∧ t.responses = s.responses ++ List.replicate C.length ⟨.ok, 0⟩

/-- R103: one-shot hashing. From ANY state, INIT, the bytes of a message, FINAL and the five reads end with the five
words of the message's hash as responses and FIN = 1: the digest is a function of the message bytes alone. -/
def Obligations.OneShotHashesTheMessage : Prop :=
  ∀ (s : State) (M : List Byte) (rest : List HostEvent), s.inbox = commandsOf (sha1Instrs M) ++ rest →
    ∃ t, Sys2Proof.core.run (M.length + 7) s = .next t ∧
      t.hasDigest = true ∧ t.h = sha1 M ∧ t.err = false ∧ t.inbox = rest ∧
      t.responses = s.responses ++ List.replicate (M.length + 2) ⟨.ok, 0⟩ ++
        [⟨.ok, (sha1 M).h0⟩, ⟨.ok, (sha1 M).h1⟩, ⟨.ok, (sha1 M).h2⟩, ⟨.ok, (sha1 M).h3⟩, ⟨.ok, (sha1 M).h4⟩]

/-! The digest's presentations -/

/-- R116: byte j of the raw digest is bits [31 - 8 (j mod 4) : 24 - 8 (j mod 4)] of H[j div 4]. -/
def Obligations.DigestBytesAreBigEndian : Prop :=
  ∀ h : HashState, (digestBytes h).length = 20 ∧
    ∀ j, j < 20 → (digestBytes h)[j]? =
      some (([h.h0, h.h1, h.h2, h.h3, h.h4].getD (j / 4) 0).extractLsb' (24 - 8 * (j % 4)) 8)

/-- R117, R115: the hexadecimal form has 40 characters; character k is the lowercase digit of the k-th nibble of the
160-bit digest, the most significant first, leading zeros kept. -/
def Obligations.HexFormHasFortyDigits : Prop :=
  ∀ h : HashState, (hex40 h).length = 40 ∧
    ∀ k, k < 40 → (hex40 h)[k]? =
      ['0', '1', '2', '3', '4', '5', '6', '7', '8', '9', 'a', 'b', 'c', 'd', 'e', 'f'][
        (digest h).toNat / 16 ^ (39 - k) % 16]?
end

