-- ==== Sys2Proof/Laws/Decode.lean ====
section
/-! SUPPORT. What the decoder can answer, and the register numbering. -/

namespace Sys2Proof

@[simp] theorem Reg.ofNumber_number (r : Reg) : Reg.ofNumber r.number = r := by cases r <;> rfl

@[simp] theorem Reg.number_ofNumber (n : BitVec 3) : (Reg.ofNumber n).number = n := by
  revert n; decide

/-- OP as a number (R55). -/
theorem opField_toNat (w : CmdWord) : (opField w).toNat = w.toNat / 4096 := by
  have := w.isLt
  simp only [opField, BitVec.extractLsb'_toNat, Nat.shiftRight_eq_div_pow]
  omega

/-- RSV as a number (R55). -/
theorem rsvField_toNat (w : CmdWord) : (rsvField w).toNat = w.toNat / 256 % 16 := by
  simp only [rsvField, BitVec.extractLsb'_toNat, Nat.shiftRight_eq_div_pow]

/-- ARG as a number (R55). -/
theorem argField_toNat (w : CmdWord) : (argField w).toNat = w.toNat % 256 := by
  simp only [argField, BitVec.extractLsb'_toNat, Nat.shiftRight_eq_div_pow]
  omega

/-- ARG[7:3] as a number (R58). -/
theorem regHighField_toNat (w : CmdWord) : (regHighField w).toNat = w.toNat % 256 / 8 := by
  simp only [regHighField, BitVec.extractLsb'_toNat, Nat.shiftRight_eq_div_pow]
  omega

/-- ARG[2:0] as a number (R58). -/
theorem regField_toNat (w : CmdWord) : (regField w).toNat = w.toNat % 8 := by
  simp only [regField, BitVec.extractLsb'_toNat, Nat.shiftRight_eq_div_pow]
  omega

/-- The whole word from its fields. -/
theorem word_of_fields (w : CmdWord) : w = opField w ++ rsvField w ++ argField w := by
  apply BitVec.eq_of_toNat_eq
  simp only [opField, rsvField, argField, BitVec.toNat_append, BitVec.extractLsb'_toNat, Nat.shiftRight_eq_div_pow,
    Nat.shiftLeft_eq]
  have := w.isLt
  rw [← Nat.shiftLeft_eq, ← Nat.shiftLeft_eq, ← Nat.shiftLeft_add_eq_or_of_lt (by omega),
    ← Nat.shiftLeft_add_eq_or_of_lt (by omega)]
  simp only [Nat.shiftLeft_eq]
  omega

/-- Everything `decode` can answer, as the cases of R57 and R59. -/
theorem decode_cases (w : CmdWord) :
    (rsvField w ≠ 0 ∧ decode w = .illegal .reservedBits) ∨
    (rsvField w = 0 ∧ opField w = 1 ∧ argField w = 0 ∧ decode w = .instr .init) ∨
    (rsvField w = 0 ∧ opField w = 1 ∧ argField w ≠ 0 ∧ decode w = .illegal .operand) ∨
    (rsvField w = 0 ∧ opField w = 2 ∧ decode w = .instr (.updb (argField w))) ∨
    (rsvField w = 0 ∧ opField w = 3 ∧ argField w = 0 ∧ decode w = .instr .final) ∨
    (rsvField w = 0 ∧ opField w = 3 ∧ argField w ≠ 0 ∧ decode w = .illegal .operand) ∨
    (rsvField w = 0 ∧ opField w = 4 ∧ regHighField w = 0 ∧ decode w = .instr (.rdr (Reg.ofNumber (regField w)))) ∨
    (rsvField w = 0 ∧ opField w = 4 ∧ regHighField w ≠ 0 ∧ decode w = .illegal .register) ∨
    (rsvField w = 0 ∧ (opField w = 0 ∨ 5 ≤ (opField w).toNat) ∧ decode w = .illegal .opcode) := by
  by_cases h : rsvField w = 0
  · have hop : ∀ x : BitVec 4, x = 0 ∨ x = 1 ∨ x = 2 ∨ x = 3 ∨ x = 4 ∨ 5 ≤ x.toNat := by decide
    have ha := em (argField w = 0)
    have hr := em (regHighField w = 0)
    rcases hop (opField w) with ho | ho | ho | ho | ho | ho
    · simp [decode, h, ho]
    · rcases ha with ha | ha
      · simp [decode, h, ho, ha]
      · simp [decode, h, ho, em]
    · simp [decode, h, ho]
    · rcases ha with ha | ha
      · simp [decode, h, ho, ha]
      · simp [decode, h, ho, em]
    · rcases hr with hr | hr
      · simp [decode, h, ho, hr]
      · simp [decode, h, ho, em]
    · have hbig : decode w = .illegal .opcode := by
        unfold decode
        rw [if_neg (by simpa using h)]
        split <;> first | omega | rfl
      exact .inr (.inr (.inr (.inr (.inr (.inr (.inr (.inr ⟨h, .inr ho, hbig⟩)))))))
  · exact .inl ⟨h, by unfold decode; rw [if_pos h]⟩

end Sys2Proof
end

