-- ==== Sys2Proof/Laws/Engine.lean ====
section
/-! SUPPORT. The lengths and the entries of the schedule, and words as numbers. -/

namespace Sys2Proof.Machine

/-- A big-endian word as a number (R8). -/
theorem wordBE_toNat (B : List Byte) (j : Nat) :
    (wordBE B j).toNat = (byteAt B (4 * j)).toNat * 2 ^ 24 + (byteAt B (4 * j + 1)).toNat * 2 ^ 16 +
      (byteAt B (4 * j + 2)).toNat * 2 ^ 8 + (byteAt B (4 * j + 3)).toNat := by
  have h1 := (byteAt B (4 * j + 1)).isLt
  have h2 := (byteAt B (4 * j + 2)).isLt
  have h3 := (byteAt B (4 * j + 3)).isLt
  simp only [wordBE, BitVec.toNat_append]
  rw [← Nat.shiftLeft_add_eq_or_of_lt h1, ← Nat.shiftLeft_add_eq_or_of_lt h2, ← Nat.shiftLeft_add_eq_or_of_lt h3]
  simp only [Nat.shiftLeft_eq]
  omega

@[simp] theorem loadWords_length (B : List Byte) : (loadWords B).length = 16 := by simp [loadWords]

theorem wordAt_loadWords (B : List Byte) {j : Nat} (h : j < 16) : wordAt (loadWords B) j = wordBE B j := by
  simp [wordAt, loadWords, h]

theorem wordAt_append_left (w w' : List Word) {i : Nat} (h : i < w.length) : wordAt (w ++ w') i = wordAt w i := by
  simp [wordAt, List.getElem?_append, h]

@[simp] theorem wordAt_append_length (w : List Word) (x : Word) : wordAt (w ++ [x]) w.length = x := by
  simp [wordAt]

@[simp] theorem expand_length (k : Nat) (w : List Word) : (expand k w).length = w.length + k := by
  induction k generalizing w with
  | zero => rfl
  | succ k ih => simp [expand, ih]; omega

/-- Expansion keeps the words that are there. -/
theorem wordAt_expand_left (k : Nat) (w : List Word) {i : Nat} (h : i < w.length) :
    wordAt (expand k w) i = wordAt w i := by
  induction k generalizing w with
  | zero => rfl
  | succ k ih => rw [expand, ih _ (by simp; omega), wordAt_append_left _ _ h]

@[simp] theorem schedule_length (B : List Byte) : (schedule B).length = 80 := by simp [schedule]

/-- The rounds over a list of schedule words are a fold over their indices (R84). -/
theorem rounds_eq_foldl (w : List Word) (t : Nat) (ws : List Word) (v : Vars)
    (h : ∀ i, i < ws.length → wordAt ws i = wordAt w (t + i)) :
    rounds t ws v = (List.range' t ws.length).foldl (fun v t => oneRound t (wordAt w t) v) v := by
  induction ws generalizing t v with
  | nil => rfl
  | cons x ws ih =>
    have hx : x = wordAt w t := h 0 (by simp)
    have hrest : ∀ i, i < ws.length → wordAt ws i = wordAt w (t + 1 + i) := fun i hi => by
      rw [show t + 1 + i = t + (i + 1) by omega]
      exact h (i + 1) (by simpa using hi)
    rw [rounds, ih (t + 1) _ hrest, List.length_cons, List.range'_succ, List.foldl_cons, ← hx]

end Sys2Proof.Machine
end

