-- ==== Sys2Proof/Laws/Memory.lean ====
section
/-! SUPPORT. The laws of the buffer space: a read after a write, and that every operation keeps the canonical form. -/

namespace Sys2Proof.Machine

@[simp] theorem Memory.read_nil (a : Nat) : Memory.read [] a = none := rfl

theorem Memory.read_cons (c : Host.Cell) (m : Memory) (a : Nat) :
    Memory.read (c :: m) a = if c.1 = a then some c.2 else Memory.read m a := rfl

/-- A slot reads the byte last stored in it. -/
@[simp] theorem Memory.read_write_same (m : Memory) (a : Nat) (b : Byte) : (m.write a b).read a = some b := by
  induction m with
  | nil => simp [Memory.write, Memory.read_cons]
  | cons c m ih =>
    simp only [Memory.write]
    split_ifs with h1 h2
    · simp [Memory.read_cons]
    · simp [Memory.read_cons]
    · simp [Memory.read_cons, ih, Ne.symm h2]

/-- A store leaves every other slot as it was. -/
theorem Memory.read_write_other (m : Memory) {a x : Nat} (b : Byte) (h : x ≠ a) :
    (m.write a b).read x = m.read x := by
  induction m with
  | nil => simp [Memory.write, Memory.read_cons, Ne.symm h]
  | cons c m ih =>
    simp only [Memory.write]
    split_ifs with h1 h2
    · simp [Memory.read_cons, Ne.symm h]
    · subst h2; simp [Memory.read_cons, Ne.symm h]
    · simp [Memory.read_cons, ih]

/-- Both laws at once. -/
theorem Memory.read_write (m : Memory) (a x : Nat) (b : Byte) :
    (m.write a b).read x = if x = a then some b else m.read x := by
  split_ifs with h
  · subst h; exact read_write_same m x b
  · exact read_write_other m b h

theorem Memory.slot_write (m : Memory) (a x : Nat) (b : Byte) :
    (m.write a b).slot x = if x = a then b else m.slot x := by
  simp only [Memory.slot, Memory.read_write]
  split_ifs <;> rfl

theorem Memory.slot_of_read {m : Memory} {a : Nat} {b : Byte} (h : m.read a = some b) : m.slot a = b := by
  simp [Memory.slot, h]

/-- The cells after a store: the one stored, and cells that were there. -/
theorem Memory.mem_write {m : Memory} {a : Nat} {b : Byte} {c : Host.Cell} (h : c ∈ m.write a b) :
    c = (a, b) ∨ c ∈ m := by
  induction m with
  | nil => simpa [Memory.write] using h
  | cons d m ih =>
    simp only [Memory.write] at h
    split_ifs at h with h1 h2
    · simpa using h
    · rcases List.mem_cons.mp h with h | h
      · exact .inl h
      · exact .inr (List.mem_cons_of_mem _ h)
    · rcases List.mem_cons.mp h with h | h
      · exact .inr (h ▸ List.mem_cons_self)
      · exact (ih h).imp id (List.mem_cons_of_mem _)

@[simp] theorem Memory.wf_nil : Memory.wf [] := ⟨List.Pairwise.nil, by simp⟩

/-- A store to a slot of BUF keeps the canonical form. -/
theorem Memory.wf_write {m : Memory} {a : Nat} (b : Byte) (hm : m.wf) (ha : a < Config.blockBytes) :
    (m.write a b).wf := by
  refine ⟨?_, fun c hc => ?_⟩
  · have hp := hm.1
    clear hm
    induction m with
    | nil => simp [Memory.write]
    | cons c m ih =>
      obtain ⟨k, x⟩ := c
      obtain ⟨hk, hp'⟩ := List.pairwise_cons.mp hp
      simp only [Memory.write]
      split_ifs with h1 h2
      · refine List.pairwise_cons.mpr ⟨fun d hd => ?_, hp⟩
        rcases List.mem_cons.mp hd with rfl | hd
        · exact h1
        · exact Nat.lt_trans h1 (hk d hd)
      · subst h2
        exact List.pairwise_cons.mpr ⟨hk, hp'⟩
      · refine List.pairwise_cons.mpr ⟨fun d hd => ?_, ih hp'⟩
        rcases Memory.mem_write hd with rfl | hd
        · simp only; omega
        · exact hk d hd
  · rcases Memory.mem_write hc with rfl | hc
    · exact ha
    · exact hm.2 c hc

/-- MemWrite inside BUF keeps the canonical form. -/
theorem memWrite_wf {m : Memory} {addr : Nat} (bs : List Byte) (hm : m.wf)
    (h : addr + bs.length ≤ Config.blockBytes) : (memWrite m addr bs).wf := by
  induction bs generalizing m addr with
  | nil => exact hm
  | cons b bs ih =>
    simp only [List.length_cons] at h
    exact ih (Memory.wf_write b hm (by omega)) (by omega)

@[simp] theorem memWrite_one (m : Memory) (addr : Nat) (b : Byte) : memWrite m addr [b] = m.write addr b := rfl

/-- MemWrite stores byte `i` of its sequence in slot `addr + i` and leaves every other slot. -/
theorem memWrite_read (m : Memory) (addr : Nat) (bs : List Byte) (x : Nat) :
    (memWrite m addr bs).read x = if addr ≤ x ∧ x < addr + bs.length then bs[x - addr]? else m.read x := by
  induction bs generalizing m addr with
  | nil => simp [memWrite]
  | cons b bs ih =>
    simp only [memWrite, ih, Memory.read_write, List.length_cons]
    by_cases hx : x = addr
    · subst hx
      simp
    · by_cases hr : addr + 1 ≤ x ∧ x < addr + 1 + bs.length
      · obtain ⟨k, rfl⟩ : ∃ k, x = addr + 1 + k := ⟨x - (addr + 1), by omega⟩
        have h1 : addr + 1 + k - (addr + 1) = k := by omega
        have h2 : addr + 1 + k - addr = k + 1 := by omega
        rw [if_pos hr, if_pos (by omega), h1, h2, List.getElem?_cons_succ]
      · rw [if_neg hr, if_neg hx, if_neg (by omega)]

@[simp] theorem memRead_length (m : Memory) (addr n : Nat) : (memRead m addr n).length = n := by
  simp [memRead]

theorem memRead_getElem? (m : Memory) (addr n : Nat) {i : Nat} (h : i < n) :
    (memRead m addr n)[i]? = some (m.slot (addr + i)) := by
  simp [memRead, h]

/-- MemRead depends on the slots it names only. -/
theorem memRead_congr {m m' : Memory} {addr n : Nat} (h : ∀ i, i < n → m.slot (addr + i) = m'.slot (addr + i)) :
    memRead m addr n = memRead m' addr n := by
  refine List.map_congr_left fun i hi => h i (List.mem_range.mp hi)

theorem memRead_succ (m : Memory) (addr n : Nat) : memRead m addr (n + 1) = memRead m addr n ++ [m.slot (addr + n)] := by
  simp [memRead, List.range_succ]

end Sys2Proof.Machine
end

