-- ==== Sys2Proof/Laws/Hasher.lean ====
section
/-! SUPPORT. The pad, the tail's compressions, and folding blocks. -/

namespace Sys2Proof.Machine

@[simp] theorem be64_length (L : LenWord) : (be64 L).length = 8 := rfl

@[simp] theorem zeros_length (z : Nat) : (zeros z).length = z := by simp [zeros]

/-- The tail is one block for n up to 55 and two above (R100). -/
theorem pad_length (m : Memory) (L : LenWord) {n : Nat} (h : n < 64) :
    (pad m n L).length = if n ≤ 55 then 64 else 128 := by
  simp only [pad, List.length_append, memRead_length, zeros_length, be64_length, List.length_singleton, padZeros]
  split_ifs <;> omega

/-- The pad depends on the valid slots only. -/
theorem pad_congr {m m' : Memory} {n : Nat} (L : LenWord) (h : ∀ a, a < n → m.slot a = m'.slot a) :
    pad m n L = pad m' n L := by
  rw [pad, pad, memRead_congr (m' := m') fun i hi => by rw [Nat.zero_add]; exact h i hi]

theorem compressTail_one (S : HashState) {T : List Byte} (h : T.length = 64) : compressTail S T = compress S T := by
  simp only [compressTail]
  rw [if_neg (by omega), List.take_of_length_le (by omega)]

theorem compressTail_two (S : HashState) {T : List Byte} (h : T.length = 128) :
    compressTail S T = compress (compress S (T.take 64)) (T.drop 64) := by
  simp only [compressTail]
  rw [if_pos h]

/-- Folding a + b blocks is folding a, then b (R48). -/
theorem foldBlocks_add (a b : Nat) (S : HashState) (B : List Byte) :
    foldBlocks (a + b) S B = foldBlocks b (foldBlocks a S B) (B.drop (64 * a)) := by
  induction a generalizing S B with
  | zero => simp [foldBlocks]
  | succ a ih =>
    rw [show a + 1 + b = a + b + 1 by omega, foldBlocks, ih, foldBlocks, List.drop_drop, show 64 + 64 * a = 64 * (a + 1) by omega]

/-- Folding reads only the blocks it counts. -/
theorem foldBlocks_append (a : Nat) (S : HashState) (B C : List Byte) (h : 64 * a ≤ B.length) :
    foldBlocks a S (B ++ C) = foldBlocks a S B := by
  induction a generalizing S B with
  | zero => rfl
  | succ a ih =>
    rw [foldBlocks, foldBlocks, List.take_append_of_le_length (by omega), List.drop_append_of_le_length (by omega),
      ih _ _ (by rw [List.length_drop]; omega)]

end Sys2Proof.Machine
end

