-- ==== Sys2Proof/Laws/State.lean ====
section
/-! SUPPORT. One lemma per field per update of the state, true by rfl, so that no later proof unfolds an update. -/

namespace Sys2Proof.Machine

variable (s : State)

/-! respond -/

@[simp] theorem State.respond_h (c : Code) (x : Word) : (s.respond c x).h = s.h := rfl
@[simp] theorem State.respond_buf (c : Code) (x : Word) : (s.respond c x).buf = s.buf := rfl
@[simp] theorem State.respond_buflen (c : Code) (x : Word) : (s.respond c x).buflen = s.buflen := rfl
@[simp] theorem State.respond_len (c : Code) (x : Word) : (s.respond c x).len = s.len := rfl
@[simp] theorem State.respond_fin (c : Code) (x : Word) : (s.respond c x).fin = s.fin := rfl
@[simp] theorem State.respond_err (c : Code) (x : Word) : (s.respond c x).err = s.err := rfl
@[simp] theorem State.respond_inbox (c : Code) (x : Word) : (s.respond c x).inbox = s.inbox := rfl
@[simp] theorem State.respond_responses (c : Code) (x : Word) : (s.respond c x).responses = s.responses ++ [⟨c, x⟩] := rfl

/-! setErr -/

@[simp] theorem State.setErr_h : (s.setErr).h = s.h := rfl
@[simp] theorem State.setErr_buf : (s.setErr).buf = s.buf := rfl
@[simp] theorem State.setErr_buflen : (s.setErr).buflen = s.buflen := rfl
@[simp] theorem State.setErr_len : (s.setErr).len = s.len := rfl
@[simp] theorem State.setErr_fin : (s.setErr).fin = s.fin := rfl
@[simp] theorem State.setErr_err : (s.setErr).err = true := rfl
@[simp] theorem State.setErr_inbox : (s.setErr).inbox = s.inbox := rfl
@[simp] theorem State.setErr_responses : (s.setErr).responses = s.responses := rfl

/-! setHash -/

@[simp] theorem State.setHash_h (h' : HashState) : (s.setHash h').h = h' := rfl
@[simp] theorem State.setHash_buf (h' : HashState) : (s.setHash h').buf = s.buf := rfl
@[simp] theorem State.setHash_buflen (h' : HashState) : (s.setHash h').buflen = s.buflen := rfl
@[simp] theorem State.setHash_len (h' : HashState) : (s.setHash h').len = s.len := rfl
@[simp] theorem State.setHash_fin (h' : HashState) : (s.setHash h').fin = s.fin := rfl
@[simp] theorem State.setHash_err (h' : HashState) : (s.setHash h').err = s.err := rfl
@[simp] theorem State.setHash_inbox (h' : HashState) : (s.setHash h').inbox = s.inbox := rfl
@[simp] theorem State.setHash_responses (h' : HashState) : (s.setHash h').responses = s.responses := rfl

/-! setFin -/

@[simp] theorem State.setFin_h : (s.setFin).h = s.h := rfl
@[simp] theorem State.setFin_buf : (s.setFin).buf = s.buf := rfl
@[simp] theorem State.setFin_buflen : (s.setFin).buflen = s.buflen := rfl
@[simp] theorem State.setFin_len : (s.setFin).len = s.len := rfl
@[simp] theorem State.setFin_fin : (s.setFin).fin = true := rfl
@[simp] theorem State.setFin_err : (s.setFin).err = s.err := rfl
@[simp] theorem State.setFin_inbox : (s.setFin).inbox = s.inbox := rfl
@[simp] theorem State.setFin_responses : (s.setFin).responses = s.responses := rfl

/-! setFill -/

@[simp] theorem State.setFill_h (n : Nat) : (s.setFill n).h = s.h := rfl
@[simp] theorem State.setFill_buf (n : Nat) : (s.setFill n).buf = s.buf := rfl
@[simp] theorem State.setFill_buflen (n : Nat) : (s.setFill n).buflen = BitVec.ofNat 6 n := rfl
@[simp] theorem State.setFill_len (n : Nat) : (s.setFill n).len = s.len := rfl
@[simp] theorem State.setFill_fin (n : Nat) : (s.setFill n).fin = s.fin := rfl
@[simp] theorem State.setFill_err (n : Nat) : (s.setFill n).err = s.err := rfl
@[simp] theorem State.setFill_inbox (n : Nat) : (s.setFill n).inbox = s.inbox := rfl
@[simp] theorem State.setFill_responses (n : Nat) : (s.setFill n).responses = s.responses := rfl

/-! countByte -/

@[simp] theorem State.countByte_h : (s.countByte).h = s.h := rfl
@[simp] theorem State.countByte_buf : (s.countByte).buf = s.buf := rfl
@[simp] theorem State.countByte_buflen : (s.countByte).buflen = s.buflen := rfl
@[simp] theorem State.countByte_len : (s.countByte).len = s.len + 8 := rfl
@[simp] theorem State.countByte_fin : (s.countByte).fin = s.fin := rfl
@[simp] theorem State.countByte_err : (s.countByte).err = s.err := rfl
@[simp] theorem State.countByte_inbox : (s.countByte).inbox = s.inbox := rfl
@[simp] theorem State.countByte_responses : (s.countByte).responses = s.responses := rfl

/-! storeByte -/

@[simp] theorem State.storeByte_h (d : Byte) : (s.storeByte d).h = s.h := rfl
@[simp] theorem State.storeByte_buf (d : Byte) : (s.storeByte d).buf = s.buf.write s.buflen.toNat d := rfl
@[simp] theorem State.storeByte_buflen (d : Byte) : (s.storeByte d).buflen = s.buflen := rfl
@[simp] theorem State.storeByte_len (d : Byte) : (s.storeByte d).len = s.len := rfl
@[simp] theorem State.storeByte_fin (d : Byte) : (s.storeByte d).fin = s.fin := rfl
@[simp] theorem State.storeByte_err (d : Byte) : (s.storeByte d).err = s.err := rfl
@[simp] theorem State.storeByte_inbox (d : Byte) : (s.storeByte d).inbox = s.inbox := rfl
@[simp] theorem State.storeByte_responses (d : Byte) : (s.storeByte d).responses = s.responses := rfl

/-! emptyBuffer -/

@[simp] theorem State.emptyBuffer_h : (s.emptyBuffer).h = s.h := rfl
@[simp] theorem State.emptyBuffer_buf : (s.emptyBuffer).buf = [] := rfl
@[simp] theorem State.emptyBuffer_buflen : (s.emptyBuffer).buflen = 0 := rfl
@[simp] theorem State.emptyBuffer_len : (s.emptyBuffer).len = s.len := rfl
@[simp] theorem State.emptyBuffer_fin : (s.emptyBuffer).fin = s.fin := rfl
@[simp] theorem State.emptyBuffer_err : (s.emptyBuffer).err = s.err := rfl
@[simp] theorem State.emptyBuffer_inbox : (s.emptyBuffer).inbox = s.inbox := rfl
@[simp] theorem State.emptyBuffer_responses : (s.emptyBuffer).responses = s.responses := rfl

/-! initialise -/

@[simp] theorem State.initialise_h : (s.initialise).h = iv := rfl
@[simp] theorem State.initialise_buf : (s.initialise).buf = [] := rfl
@[simp] theorem State.initialise_buflen : (s.initialise).buflen = 0 := rfl
@[simp] theorem State.initialise_len : (s.initialise).len = 0 := rfl
@[simp] theorem State.initialise_fin : (s.initialise).fin = false := rfl
@[simp] theorem State.initialise_err : (s.initialise).err = false := rfl
@[simp] theorem State.initialise_inbox : (s.initialise).inbox = s.inbox := rfl
@[simp] theorem State.initialise_responses : (s.initialise).responses = s.responses := rfl

/-! present -/

@[simp] theorem State.present_h (e : HostEvent) : (s.present e).h = s.h := rfl
@[simp] theorem State.present_buf (e : HostEvent) : (s.present e).buf = s.buf := rfl
@[simp] theorem State.present_buflen (e : HostEvent) : (s.present e).buflen = s.buflen := rfl
@[simp] theorem State.present_len (e : HostEvent) : (s.present e).len = s.len := rfl
@[simp] theorem State.present_fin (e : HostEvent) : (s.present e).fin = s.fin := rfl
@[simp] theorem State.present_err (e : HostEvent) : (s.present e).err = s.err := rfl
@[simp] theorem State.present_inbox (e : HostEvent) : (s.present e).inbox = e :: s.inbox := rfl
@[simp] theorem State.present_responses (e : HostEvent) : (s.present e).responses = s.responses := rfl

end Sys2Proof.Machine
end

