-- ==== Sys2Proof/Laws/Ops.lean ====
section
/-! SUPPORT. What each shared operation and each meaning can do, said once. -/

namespace Sys2Proof.Machine

/-- Taking an exception answers exactly this next state (R125). -/
theorem raise_eq (e : Exc) (s : State) :
    raise e s = .next { s with err := true, responses := s.responses ++ [⟨e.code, 0⟩] } := rfl

theorem phase_of_fin {s : State} (h : s.fin = true) : s.phase = .finalized := by simp [State.phase, h]

theorem phase_of_not_fin {s : State} (h : s.fin = false) : s.phase = .active := by simp [State.phase, h]

/-- INIT's next state. -/
theorem execInit_eq (s : State) : execInit s = .next (s.initialise.respond .ok 0) := rfl

/-- RDR's next state. -/
theorem execRdr_eq (r : Reg) (s : State) :
    execRdr r s = .next { s with responses := s.responses ++ [⟨.ok, s.regValue r⟩] } := rfl

/-- UPDB while FIN = 1. -/
theorem execUpdb_finalized (d : Byte) {s : State} (h : s.fin = true) : execUpdb d s = raise .estate s := by
  simp [execUpdb, phase_of_fin h]

/-- UPDB while FIN = 0 with room for another byte. -/
theorem execUpdb_appends (d : Byte) {s : State} (h : s.fin = false) (hn : s.buflen.toNat + 1 ≠ 64) :
    execUpdb d s = .next { s with
      len := s.len + 8
      buf := s.buf.write s.buflen.toNat d
      buflen := BitVec.ofNat 6 (s.buflen.toNat + 1)
      responses := s.responses ++ [⟨.ok, 0⟩] } := by
  simp [execUpdb, phase_of_not_fin h, State.drainAt, hn, State.setFill, State.respond, State.countByte, State.storeByte]

/-- The drain at 64 bytes. -/
theorem drainAt_full (s : State) {n : Nat} (h : n = 64) :
    s.drainAt n = (s.setHash (compress s.h (memRead s.buf 0 64))).emptyBuffer := by
  rw [State.drainAt, if_pos h]

/-- All the updates of a draining UPDB at once. -/
theorem drained_eq (s : State) (d : Byte) (h : HashState) :
    (((s.countByte.storeByte d).setHash h).emptyBuffer).respond .ok 0 = { s with
      h := h
      len := s.len + 8
      buf := []
      buflen := 0
      responses := s.responses ++ [⟨.ok, 0⟩] } := rfl

/-- UPDB while FIN = 0 with the 64th byte. -/
theorem execUpdb_drains (d : Byte) {s : State} (h : s.fin = false) (hn : s.buflen.toNat + 1 = 64) :
    execUpdb d s = .next { s with
      h := compress s.h (memRead (s.buf.write s.buflen.toNat d) 0 64)
      len := s.len + 8
      buf := []
      buflen := 0
      responses := s.responses ++ [⟨.ok, 0⟩] } := by
  rw [execUpdb, phase_of_not_fin h]
  simp only []
  rw [drainAt_full _ hn, drained_eq]
  simp only [State.storeByte_h, State.countByte_h, State.storeByte_buf, State.countByte_buf, State.countByte_buflen]

/-- FINAL while FIN = 1. -/
theorem execFinal_finalized {s : State} (h : s.fin = true) : execFinal s = raise .estate s := by
  simp [execFinal, phase_of_fin h]

/-- FINAL while FIN = 0. -/
theorem execFinal_active {s : State} (h : s.fin = false) :
    execFinal s = .next { s with
      h := compressTail s.h (pad s.buf s.buflen.toNat s.len)
      fin := true
      responses := s.responses ++ [⟨.ok, 0⟩] } := by
  simp [execFinal, phase_of_not_fin h, State.respond, State.setFin, State.setHash]

/-- The drained block: the 63 bytes of the buffer, then the new one (R48). -/
theorem memRead_drained (m : Memory) (d : Byte) : memRead (m.write 63 d) 0 64 = memRead m 0 63 ++ [d] := by
  rw [memRead_succ]
  congr 1
  · exact memRead_congr fun i hi => by rw [Memory.slot_write, if_neg (by omega)]
  · simp [Memory.slot_write]

/-- BUFLEN after an append that does not fill the block. -/
theorem buflen_succ (n : BitVec 6) (h : n.toNat + 1 ≠ 64) : (BitVec.ofNat 6 (n.toNat + 1)).toNat = n.toNat + 1 := by
  have := n.isLt
  simp only [BitVec.toNat_ofNat]
  omega

end Sys2Proof.Machine
end

