-- ==== Sys2Proof/Laws/PerInstr.lean ====
section
/-! SUPPORT. One lemma per command about its encoding as syntax. -/

namespace Sys2Proof.Laws.EncodingRow

/-- The word of a command has the fixed bits of its row of the opcode map (R57), and the check of the word alone
(R59) calls it legal. -/
def Statement (i : Instr) : Prop := i.row.selects (encode i) = true ∧ legalWord (encode i) = true ∧ i.wellFormed = true

theorem init : Statement .init := ⟨by decide, by decide, rfl⟩

theorem updb (d : Byte) : Statement (.updb d) := by
  refine ⟨?_, ?_, rfl⟩ <;> (revert d; decide)

theorem final : Statement .final := ⟨by decide, by decide, rfl⟩

theorem rdr (r : Reg) : Statement (.rdr r) := by
  cases r <;> exact ⟨by decide, by decide, rfl⟩

end Sys2Proof.Laws.EncodingRow
end

