-- ==== Sys2Proof/Laws/Step.lean ====
section
/-! SUPPORT. What a step can do, said once: by the host's next event, and then by the command it decodes to. -/

namespace Sys2Proof.Machine

/-- With no event pending nothing changes. -/
theorem step_idle {s : State} (h : s.inbox = []) : step s = .next s := by
  simp [step, fetch, h]

/-- The reset event. -/
theorem step_reset {s : State} {rest : List HostEvent} (h : s.inbox = .reset :: rest) :
    step s = .next { s with inbox := rest }.initialise := by
  simp [step, fetch, h, resetEvent]

/-- A command word. -/
theorem step_command {s : State} {w : CmdWord} {rest : List HostEvent} (h : s.inbox = .command w :: rest) :
    step s = runCommand w { s with inbox := rest } := by
  simp [step, fetch, h]

theorem runCommand_instr {w : CmdWord} {i : Instr} (h : decode w = .instr i) (s : State) :
    runCommand w s = exec i s := by
  simp [runCommand, h]

theorem runCommand_illegal {w : CmdWord} {why : Illegal} (h : decode w = .illegal why) (s : State) :
    runCommand w s = raise .eillegal s := by
  simp [runCommand, h]

/-- Everything a meaning can do. -/
theorem exec_cases (i : Instr) (s : State) :
    (i = .init ∧ exec i s = .next (s.initialise.respond .ok 0)) ∨
    (∃ d, i = .updb d ∧ s.fin = false ∧ s.buflen.toNat + 1 ≠ 64 ∧ exec i s = .next { s with
      len := s.len + 8
      buf := s.buf.write s.buflen.toNat d
      buflen := BitVec.ofNat 6 (s.buflen.toNat + 1)
      responses := s.responses ++ [⟨.ok, 0⟩] }) ∨
    (∃ d, i = .updb d ∧ s.fin = false ∧ s.buflen.toNat + 1 = 64 ∧ exec i s = .next { s with
      h := compress s.h (memRead (s.buf.write s.buflen.toNat d) 0 64)
      len := s.len + 8
      buf := []
      buflen := 0
      responses := s.responses ++ [⟨.ok, 0⟩] }) ∨
    (i = .final ∧ s.fin = false ∧ exec i s = .next { s with
      h := compressTail s.h (pad s.buf s.buflen.toNat s.len)
      fin := true
      responses := s.responses ++ [⟨.ok, 0⟩] }) ∨
    (((∃ d, i = .updb d) ∨ i = .final) ∧ s.fin = true ∧ exec i s = raise .estate s) ∨
    (∃ r, i = .rdr r ∧ exec i s = .next { s with responses := s.responses ++ [⟨.ok, s.regValue r⟩] }) := by
  cases i with
  | init => exact .inl ⟨rfl, rfl⟩
  | updb d =>
    cases hf : s.fin with
    | true => exact .inr (.inr (.inr (.inr (.inl ⟨.inl ⟨d, rfl⟩, rfl, execUpdb_finalized d hf⟩))))
    | false =>
      by_cases hn : s.buflen.toNat + 1 = 64
      · exact .inr (.inr (.inl ⟨d, rfl, rfl, hn, hf ▸ execUpdb_drains d hf hn⟩))
      · exact .inr (.inl ⟨d, rfl, rfl, hn, hf ▸ execUpdb_appends d hf hn⟩)
  | final =>
    cases hf : s.fin with
    | true => exact .inr (.inr (.inr (.inr (.inl ⟨.inr rfl, rfl, execFinal_finalized hf⟩))))
    | false => exact .inr (.inr (.inr (.inl ⟨rfl, rfl, execFinal_active hf⟩)))
  | rdr r => exact .inr (.inr (.inr (.inr (.inr ⟨r, rfl, rfl⟩))))

/-- Everything a step can do when the host presents a command word, by what the word decodes to. -/
theorem step_command_cases {s : State} {w : CmdWord} {rest : List HostEvent} (h : s.inbox = .command w :: rest) :
    (decode w = .instr .init ∧
      step s = .next ({ s with inbox := rest }.initialise.respond .ok 0)) ∨
    (∃ d, decode w = .instr (.updb d) ∧ s.fin = false ∧ s.buflen.toNat + 1 ≠ 64 ∧ step s = .next { s with
      len := s.len + 8
      buf := s.buf.write s.buflen.toNat d
      buflen := BitVec.ofNat 6 (s.buflen.toNat + 1)
      inbox := rest
      responses := s.responses ++ [⟨.ok, 0⟩] }) ∨
    (∃ d, decode w = .instr (.updb d) ∧ s.fin = false ∧ s.buflen.toNat + 1 = 64 ∧ step s = .next { s with
      h := compress s.h (memRead (s.buf.write s.buflen.toNat d) 0 64)
      len := s.len + 8
      buf := []
      buflen := 0
      inbox := rest
      responses := s.responses ++ [⟨.ok, 0⟩] }) ∨
    (decode w = .instr .final ∧ s.fin = false ∧ step s = .next { s with
      h := compressTail s.h (pad s.buf s.buflen.toNat s.len)
      fin := true
      inbox := rest
      responses := s.responses ++ [⟨.ok, 0⟩] }) ∨
    (((∃ d, decode w = .instr (.updb d)) ∨ decode w = .instr .final) ∧ s.fin = true ∧ step s = .next { s with
      err := true
      inbox := rest
      responses := s.responses ++ [⟨.estate, 0⟩] }) ∨
    (∃ r, decode w = .instr (.rdr r) ∧ step s = .next { s with
      inbox := rest
      responses := s.responses ++ [⟨.ok, s.regValue r⟩] }) ∨
    (∃ why, decode w = .illegal why ∧ step s = .next { s with
      err := true
      inbox := rest
      responses := s.responses ++ [⟨.eillegal, 0⟩] }) := by
  rw [step_command h]
  cases hd : decode w with
  | illegal why =>
    rw [runCommand_illegal hd]
    exact .inr (.inr (.inr (.inr (.inr (.inr ⟨why, rfl, rfl⟩)))))
  | instr i =>
    rw [runCommand_instr hd]
    rcases exec_cases i { s with inbox := rest } with
      ⟨rfl, e⟩ | ⟨d, rfl, hf, hn, e⟩ | ⟨d, rfl, hf, hn, e⟩ | ⟨rfl, hf, e⟩ | ⟨hi, hf, e⟩ | ⟨r, rfl, e⟩
    · exact .inl ⟨rfl, e⟩
    · exact .inr (.inl ⟨d, rfl, hf, hn, e⟩)
    · exact .inr (.inr (.inl ⟨d, rfl, hf, hn, e⟩))
    · exact .inr (.inr (.inr (.inl ⟨rfl, hf, e⟩)))
    · refine .inr (.inr (.inr (.inr (.inl ⟨?_, hf, e⟩))))
      rcases hi with ⟨d, rfl⟩ | rfl
      · exact .inl ⟨d, rfl⟩
      · exact .inr rfl
    · exact .inr (.inr (.inr (.inr (.inr (.inl ⟨r, rfl, e⟩)))))

end Sys2Proof.Machine
end

