-- ==== Sys2Proof/Tests/Slice0.lean ====
section
/-! SUPPORT. The model's own tests: the checks of WellFormed refuse, words of the opcode map decode, values of the
spec's examples and vectors (95_test_vectors.md), and a witness for the hypotheses of each statement. -/

namespace Sys2Proof.Tests

open Sys2Proof Sys2Proof.Machine

/-! WellFormed: an ill-formed term for each check (R63, R64) -/

theorem test_wf_byte_number : AsmLine.wellFormed (.updb (.num 256)) = false := by decide
theorem test_wf_byte_char : AsmLine.wellFormed (.updb (.chr '\n')) = false := by decide
theorem test_wf_register : AsmLine.wellFormed (.rdr (.num 8)) = false := by decide
theorem test_wf_word : AsmLine.wellFormed (.word 65536) = false := by decide
theorem test_wf_text : AsmLine.wellFormed (.updateText ['a', 'é']) = false := by decide
theorem test_wf_bytes : AsmLine.wellFormed (.updateBytes [.num 1, .num 300]) = false := by decide
theorem test_wf_fill : AsmLine.wellFormed (.fill (.num 256) 3) = false := by decide
theorem test_wf_sha1 : AsmLine.wellFormed (.sha1 ['é']) = false := by decide

/-! Decoding: words written out bit by bit from R57, and illegal neighbours (V16) -/

theorem test_decode_init : decode 0b0001000000000000#16 = .instr .init := by decide
theorem test_decode_updb : decode 0b0010000011111111#16 = .instr (.updb 0xFF) := by decide
theorem test_decode_final : decode 0b0011000000000000#16 = .instr .final := by decide
theorem test_decode_rdr : decode 0b0100000000000110#16 = .instr (.rdr .lenl) := by decide
theorem test_decode_rdr_8 : decode 0b0100000000001000#16 = .illegal .register := by decide
theorem test_decode_init_arg : decode 0b0001000000000001#16 = .illegal .operand := by decide
theorem test_decode_updb_rsv : decode 0x2161#16 = .illegal .reservedBits := by decide
theorem test_decode_zero : decode 0x0000#16 = .illegal .opcode := by decide
theorem test_decode_ones : decode 0xFFFF#16 = .illegal .reservedBits := by decide
theorem test_rows_disjoint :
    opcodeRows.Pairwise (fun a b => (a.pattern ^^^ b.pattern) &&& (a.mask &&& b.mask) ≠ 0) := by decide
theorem test_table_word : decodeTableWord 16 0x2061 = some (.updb 0x61) := by decide
theorem test_table_word_illegal : decodeTableWord 16 0x5000 = none := by decide

/-! The engine (V4 to V8, V10, V12) -/

theorem test_rotl_top_bit : rotl 0x80000001#32 1 = 0x00000003#32 := by decide
theorem test_rotl_30 : rotl 0xEFCDAB89#32 30 = 0x7BF36AE2#32 := by decide
theorem test_add32_wraps : add32 0xFFFFFFFF#32 0xFFFFFFFF#32 = 0xFFFFFFFE#32 := by decide
theorem test_fCh : fCh 0xF0F0F0F0#32 0xCCCCCCCC#32 0xAAAAAAAA#32 = 0xCACACACA#32 := by decide
theorem test_fPar : fPar 0xF0F0F0F0#32 0xCCCCCCCC#32 0xAAAAAAAA#32 = 0x96969696#32 := by decide
theorem test_fMaj : fMaj 0xF0F0F0F0#32 0xCCCCCCCC#32 0xAAAAAAAA#32 = 0xE8E8E8E8#32 := by decide

/-- Round 0 of the block of "abc" (R82's example). -/
theorem test_oneRound : oneRound 0 0x61626380#32 (initVars iv) =
    ⟨0x0116FC33#32, 0x67452301#32, 0x7BF36AE2#32, 0x98BADCFE#32, 0x10325476#32⟩ := by decide

/-- The block of the message "abc" (V10). -/
def abcBlock : List Byte := [0x61#8, 0x62#8, 0x63#8, 0x80#8] ++ zeros 59 ++ [0x18#8]

/-- V10: w[16], w[40], w[79] of that block. -/
theorem test_schedule : wordAt (schedule abcBlock) 16 = 0xC2C4C700#32 ∧
    wordAt (schedule abcBlock) 40 = 0xD2E138C4#32 ∧ wordAt (schedule abcBlock) 79 = 0x822E0879#32 := by decide +kernel

/-- R84's example. -/
theorem test_compress : compress iv abcBlock =
    ⟨0xA9993E36#32, 0x4706816A#32, 0xBA3E2571#32, 0x7850C26C#32, 0x9CD0D89D#32⟩ := by decide +kernel

/-- R84's corner case: the zero state and the zero block. -/
theorem test_compress_zero : compress ⟨0, 0, 0, 0, 0⟩ (zeros 64) =
    ⟨0x9E1547ED#32, 0x57EC91C2#32, 0x30FA8BC8#32, 0xC7785A54#32, 0xA7EFA5E3#32⟩ := by decide +kernel

/-- R117's example: leading zeros are kept and the high nibble comes first (V1). -/
theorem test_hexByte : hexByte 0x0D#8 = ['0', 'd'] := by decide

/-! One step of each command -/

/-- The state with one byte 0x61 absorbed after INIT (R97's example). -/
def oneByte : State := { State.reset with buf := [(0, 0x61#8)], buflen := 1, len := 8 }

/-- The state that has finalized, with three bytes in the buffer (R101's example). -/
def finalized : State := { State.reset with
  buf := [(0, 0x61#8), (1, 0x62#8), (2, 0x63#8)], buflen := 3, len := 24, fin := true }

/-- A state with `n` bytes 0x61 in the buffer. -/
def filled (n : Nat) : State := { State.reset with
  buf := (List.range n).map fun i => (i, 0x61#8), buflen := BitVec.ofNat 6 n, len := BitVec.ofNat 64 (8 * n) }

/-- `s` with one command word from the host. -/
def withCommand (s : State) (w : CmdWord) : State := { s with inbox := [.command w] }

/-- The state after a step; the step's start where it does not answer a next state. -/
def after (s : State) : State :=
  match step s with
  | .next t => t
  | .fault _ => s
  | .refused _ => s

theorem test_init_clears : after (withCommand { finalized with err := true } 0x1000) =
    { State.reset with responses := [⟨.ok, 0⟩] } := by decide
theorem test_updb_first : after (withCommand State.reset 0x2061) = { oneByte with responses := [⟨.ok, 0⟩] } := by decide

/-- V15: the 64th byte; LEN wraps to 0, the buffer is empty, nothing is raised. -/
theorem test_updb_drains : (after (withCommand { filled 63 with len := 0xFFFFFFFFFFFFFFF8#64 } 0x2000)).len = 0 ∧
    (after (withCommand { filled 63 with len := 0xFFFFFFFFFFFFFFF8#64 } 0x2000)).buflen = 0 ∧
    (after (withCommand { filled 63 with len := 0xFFFFFFFFFFFFFFF8#64 } 0x2000)).buf = [] ∧
    (after (withCommand { filled 63 with len := 0xFFFFFFFFFFFFFFF8#64 } 0x2000)).responses = [⟨.ok, 0⟩] := by
  decide +kernel

/-- V1: FINAL on the empty message. -/
theorem test_final_empty : (after (withCommand State.reset 0x3000)).h =
    ⟨0xDA39A3EE#32, 0x5E6B4B0D#32, 0x3255BFEF#32, 0x95601890#32, 0xAFD80709#32⟩ := by decide +kernel

/-- V22: 56 bytes pad into two blocks. -/
theorem test_final_two_blocks : (after (withCommand (filled 56) 0x3000)).h =
    ⟨0xC2DB330F#32, 0x6083854C#32, 0x99D4B5BF#32, 0xB6E8F29F#32, 0x201BE699#32⟩ := by decide +kernel

/-- V18: STATUS after three bytes and FINAL. -/
theorem test_rdr_status : (after (withCommand finalized 0x4007)).responses = [⟨.ok, 0x00000301#32⟩] := by decide
theorem test_rdr_h4 : (after (withCommand State.reset 0x4004)).responses = [⟨.ok, 0xC3D2E1F0#32⟩] := by decide

/-- V17: a second FINAL changes ERR only; its response word has CODE 1. -/
theorem test_estate : after (withCommand finalized 0x3000) = { finalized with err := true, responses := [⟨.estate, 0⟩] } := by
  decide
theorem test_estate_word : (⟨.estate, 0⟩ : Response).word = 0x100000000#34 := by decide

/-- V17, R124: an illegal word outranks the phase check. -/
theorem test_eillegal : (after (withCommand finalized 0x3001)).responses = [⟨.eillegal, 0⟩] := by decide

/-- The one response of a step on the output port (R62). -/
theorem test_ports : (outPorts (withCommand State.reset 0x0000) (after (withCommand State.reset 0x0000))).rsp =
    some 0x200000000#34 := by decide

/-! The assembler (R63, P2) -/

theorem test_parse_char : parseLine "UPDB 'a' ; comment".toList = some [.updb (.chr 'a')] := by decide +kernel
theorem test_parse_fill : parseLine "FILL 0x61, 64".toList = some [.fill (.num 0x61) 64] := by decide +kernel
theorem test_parse_lower_case : parseLine "init".toList = none := by decide +kernel
theorem test_assemble_sha1 : assemble (.sha1 ['a']) =
    some [0x1000, 0x2061, 0x3000, 0x4000, 0x4001, 0x4002, 0x4003, 0x4004] := by decide

/-! For each statement with hypotheses, concrete data that meet all of them together; for each clause, at a boundary
of its range -/

theorem witness_IllegalWordsAreTheFourCasesAndOnlySetErr :
    (withCommand finalized 0x3001).inbox = .command 0x3001 :: [] ∧ decode 0x3001 = .illegal .operand := by decide

theorem witness_StepRunsTheDecodedCommand :
    ((withCommand State.reset 0x20FF).inbox = .command 0x20FF :: [] ∧ decode 0x20FF = .instr (.updb 0xFF)) ∧
    decodeTableWord 16 0x4007 = some (.rdr .status) := by decide

theorem witness_AssemblerEmitsTheCommandWords :
    assemble (.updb (.num 255)) = some [0x20FF] ∧ assemble (.updb (.chr ' ')) = some [0x2020] ∧
    assemble (.updb (.chr '~')) = some [0x207E] ∧ assemble (.rdr (.num 7)) = some [0x4007] ∧
    assemble (.word 65535) = some [0xFFFF] ∧
    (assemble (.fill (.num 0) 2) = some [0x2000, 0x2000] ∧ AsmLine.fill (.num 0) 2 ≠ .word 0) := by decide

theorem witness_PseudoInstructionsExpandToTheirCommands :
    (asciiText [] = true ∧ asciiText ['b', Char.ofNat 127] = true ∧
      assemble (.updateText ['b', Char.ofNat 127]) = some [0x2062, 0x207F]) ∧
    ([ByteLit.num 255, .chr ' '].all ByteLit.wellFormed = true ∧
      assemble (.updateBytes [.num 255, .chr ' ']) = some [0x20FF, 0x2020]) ∧
    assemble (.fill (.num 255) 0) = some [] ∧ assemble (.fill (.chr '~') 1) = some [0x207E] := by decide

theorem witness_RotlMovesEachBit : (0 < 1 ∧ 1 < 32) ∧ (0 < 31 ∧ 31 < 32) ∧ 31 < 32 ∧
    (rotl 0x80000001#32 31).getLsbD 31 = true ∧ (rotl 0x80000001#32 1).getLsbD 31 = false := by decide

/-- The block of the statements about the engine, with indices at the ends of the clauses' ranges. -/
theorem witness_ScheduleFollowsTheRecurrence :
    abcBlock.length = 64 ∧ (wordAt (schedule abcBlock) 0).toNat = 0x61626380 ∧
    (wordAt (schedule abcBlock) 15).toNat = 0x18 ∧ (16 ≤ 16 ∧ 16 < 80) ∧ (16 ≤ 79 ∧ 79 < 80) := by decide +kernel

/-- Round indices at the ends of each range of R80. -/
theorem witness_RoundUpdatesTheWorkingVariables :
    roundConst 0 = 0x5A827999#32 ∧ roundConst 19 = 0x5A827999#32 ∧ roundConst 20 = 0x6ED9EBA1#32 ∧
    roundConst 39 = 0x6ED9EBA1#32 ∧ roundConst 40 = 0x8F1BBCDC#32 ∧ roundConst 59 = 0x8F1BBCDC#32 ∧
    roundConst 60 = 0xCA62C1D6#32 ∧ roundConst 79 = 0xCA62C1D6#32 ∧ 79 < 80 := by decide

theorem witness_CompressRunsEightyRoundsAndAddsBack : abcBlock.length = 64 := by decide

theorem witness_WindowedEngineEqualsCompress : (zeros 64).length = 64 := by decide

theorem witness_PackedEngineComputesCompress : abcBlock.length = 64 ∧ 15 < 16 ∧
    (packBlock abcBlock).extractLsb' (480 - 32 * 15) 32 = 0x18#32 := by decide +kernel

theorem witness_ResetAndInitLoadTheResetValues :
    ({ finalized with inbox := [.reset] } : State).inbox = .reset :: [] := rfl

/-- FIN = 1; room for one more byte, at the boundary; the 64th byte. -/
theorem witness_UpdbAppendsAByteAndDrainsAFullBlock :
    finalized.fin = true ∧ ((filled 62).fin = false ∧ (filled 62).buflen.toNat + 1 < 64) ∧
    ((filled 63).fin = false ∧ (filled 63).buflen.toNat + 1 = 64) := by decide

/-- FIN = 1; the largest remainder with one block; the smallest with two. -/
theorem witness_FinalCompressesThePaddedTail :
    finalized.fin = true ∧ ((filled 55).fin = false ∧ (filled 55).buflen.toNat ≤ 55) ∧
    ((filled 56).fin = false ∧ 56 ≤ (filled 56).buflen.toNat) := by decide

/-- n = 55 and n = 56; the last data byte; the first and the last zero byte; the last byte of the length (V13). -/
theorem witness_PadIsOneOrTwoBlocks :
    (55 < 64 ∧ (pad (filled 55).buf 55 440).length = 64) ∧ (56 < 64 ∧ (pad (filled 56).buf 56 448).length = 128) ∧
    (55 < 56 ∧ (pad (filled 56).buf 56 448)[55]? = some 0x61#8) ∧
    (56 < 57 ∧ 57 + 8 < 128 ∧ (pad (filled 56).buf 56 448)[57]? = some 0#8) ∧
    (56 < 119 ∧ 119 + 8 < 128 ∧ (pad (filled 56).buf 56 448)[119]? = some 0#8) ∧
    (7 < 8 ∧ (pad (filled 56).buf 56 448)[127]? = some 0xC0#8) := by decide +kernel

theorem witness_LengthFieldIsTheLastTwoWords : 63 < 64 := by decide

/-- The clauses on LENH, LENL and STATUS, with a counter that fills both halves. -/
theorem witness_RdrReturnsTheRegisterAndChangesNothing :
    ({ finalized with len := 0x123456789ABCDEF8#64 } : State).regValue .lenh = 0x12345678#32 ∧
    ({ finalized with len := 0x123456789ABCDEF8#64 } : State).regValue .lenl = 0x9ABCDEF8#32 ∧
    ({ filled 63 with fin := true, err := true } : State).regValue .status = 0x3F03#32 := by decide

theorem witness_ExceptionsHaveExactlyTheirCauses :
    (withCommand finalized 0x2062).inbox = .command 0x2062 :: [] ∧
    (withCommand finalized 0x3001).inbox = .command 0x3001 :: [] := by decide

theorem witness_ExceptionsArePrecise :
    (withCommand finalized 0x2062).inbox = .command 0x2062 :: [] ∧
    step (withCommand finalized 0x2062) = .next { finalized with err := true, responses := [⟨.estate, 0⟩] } ∧
    ({ finalized with err := true, responses := [⟨.estate, 0⟩] } : State).responses =
      (withCommand finalized 0x2062).responses ++ [⟨.estate, 0⟩] ∧ Code.estate ≠ .ok :=
  ⟨rfl, rfl, rfl, by decide⟩

/-- The first case: a word that is an RDR, and one that is none. -/
theorem witness_EveryCommandGetsOneResponse :
    (withCommand finalized 0x4007).inbox = .command 0x4007 :: [] ∧ 0x4007#16 = encode (.rdr .status) ∧
    ∀ reg, 0x2000#16 ≠ encode (.rdr reg) := by
  refine ⟨rfl, by decide, fun reg => ?_⟩
  cases reg <;> decide

theorem witness_NoMisuseIsLostExactlyByExceptions :
    (withCommand oneByte 0x4000).inbox = .command 0x4000 :: [] ∧
    step (withCommand oneByte 0x4000) = .next { oneByte with responses := [⟨.ok, 0x67452301⟩] } ∧
    (withCommand oneByte 0x4000).noMisuse = true := ⟨rfl, rfl, rfl⟩

theorem witness_EveryStepAnswersANextState : State.reset.inbox = [] := rfl

/-- FIN set by FINAL; FIN cleared by INIT and by reset. -/
theorem witness_FinIsWrittenOnlyByFinalInitAndReset :
    ((withCommand State.reset 0x3000).inbox = .command (encode .final) :: [] ∧ State.reset.fin = false ∧
      step (withCommand State.reset 0x3000) = .next { State.reset with
        h := compressTail iv (pad [] 0 0), fin := true, responses := [⟨.ok, 0⟩] }) ∧
    ((withCommand finalized 0x1000).inbox = .command (encode .init) :: [] ∧ finalized.fin = true ∧
      step (withCommand finalized 0x1000) = .next { State.reset with responses := [⟨.ok, 0⟩] }) ∧
    step { finalized with inbox := [.reset] } = .next State.reset :=
  ⟨⟨by decide, rfl, rfl⟩, ⟨by decide, rfl, rfl⟩, rfl⟩

/-- Reset; an illegal word and a second FINAL; a word that causes no exception and is not INIT. -/
theorem witness_ErrIsStickyUntilInitOrReset :
    step { finalized with inbox := [.reset] } = .next State.reset ∧
    (step (withCommand finalized 0x0000) = .next { finalized with err := true, responses := [⟨.eillegal, 0⟩] } ∧
      causesException 0x0000 finalized.fin) ∧
    causesException 0x3000 finalized.fin ∧
    (step (withCommand finalized 0x4000) = .next { finalized with responses := [⟨.ok, 0x67452301⟩] } ∧
      0x4000#16 ≠ encode .init ∧ ¬causesException 0x4000 finalized.fin) := by
  refine ⟨rfl, ⟨rfl, .inl (by decide)⟩, .inr ⟨rfl, .inr (by decide)⟩, rfl, by decide, ?_⟩
  rintro (h | ⟨_, ⟨d, h⟩ | h⟩)
  · exact absurd h (by decide)
  · revert d; decide
  · exact absurd h (by decide)

/-- A next state, and a next word that is no read of STATUS. -/
theorem witness_ErrGatesNothing :
    step (withCommand finalized 0x4000) = .next { finalized with responses := [⟨.ok, 0x67452301⟩] } ∧
    (withCommand finalized 0x4000).inbox.head? ≠ some (.command (encode (.rdr .status))) := ⟨rfl, by decide⟩

/-- INIT; an accepted UPDB; a command that is no UPDB while FIN = 1, and an RDR while FIN = 0. -/
theorem witness_LenCountsAcceptedBytesOnly :
    ((withCommand finalized 0x1000).inbox = .command (encode .init) :: [] ∧
      step (withCommand finalized 0x1000) = .next { State.reset with responses := [⟨.ok, 0⟩] }) ∧
    (step (withCommand State.reset 0x2061) = .next { oneByte with responses := [⟨.ok, 0⟩] } ∧
      HostEvent.command 0x2061 = .command (encode (.updb 0x61)) ∧ State.reset.fin = false) ∧
    (step (withCommand finalized 0x4000) = .next { finalized with responses := [⟨.ok, 0x67452301⟩] } ∧
      finalized.fin = true) ∧
    (HostEvent.command 0x4000 ≠ .command (encode .init) ∧
      ∀ d, HostEvent.command 0x4000 ≠ .command (encode (.updb d))) :=
  ⟨⟨by decide, rfl⟩, ⟨rfl, by decide, rfl⟩, ⟨rfl, rfl⟩, by decide⟩

/-- INIT in a state with another chaining value. -/
theorem witness_HashStateChangesOnlyWhenABlockIsCompressed :
    (withCommand { State.reset with h := ⟨0, 0, 0, 0, 0⟩ } 0x1000).inbox = .command 0x1000 :: [] ∧
    step (withCommand { State.reset with h := ⟨0, 0, 0, 0, 0⟩ } 0x1000) =
      .next { State.reset with responses := [⟨.ok, 0⟩] } ∧
    State.reset.h ≠ ({ State.reset with h := ⟨0, 0, 0, 0, 0⟩ } : State).h := ⟨rfl, rfl, by decide⟩

theorem witness_DigestIsImmutableUntilInitOrReset :
    (withCommand finalized 0x2062).fin = true ∧ (withCommand finalized 0x2062).inbox = .command 0x2062 :: [] ∧
    0x2062#16 ≠ encode .init ∧
    step (withCommand finalized 0x2062) = .next { finalized with err := true, responses := [⟨.estate, 0⟩] } :=
  ⟨rfl, rfl, by decide, rfl⟩

/-- Two states that differ in an invalid slot only. -/
theorem witness_StaleSlotsAreNeverRead :
    SameButStale oneByte { oneByte with buf := [(0, 0x61#8), (5, 0x7#8)] } ∧
    oneByte ≠ { oneByte with buf := [(0, 0x61#8), (5, 0x7#8)] } := by
  refine ⟨⟨rfl, rfl, rfl, rfl, rfl, rfl, rfl, fun a ha => ?_⟩, by decide⟩
  obtain rfl : a = 0 := by simpa [oneByte] using ha
  rfl

/-- The slots of a state with one byte. -/
theorem oneByte_read (a : Nat) : oneByte.buf.read a = [0x61#8][a]? := by
  cases a with
  | zero => rfl
  | succ a => simp [oneByte, Memory.read_cons]

/-- The state after two bytes meets the hypotheses with its next state. -/
theorem witness_EveryStepKeepsTheInvariant : (withCommand oneByte 0x2062).Inv ∧
    step (withCommand oneByte 0x2062) = .next { State.reset with
      buf := [(0, 0x61#8), (1, 0x62#8)], buflen := 2, len := 16, responses := [⟨.ok, 0⟩] } := by
  refine ⟨⟨⟨by decide, fun a => ?_⟩, by decide⟩, rfl⟩
  show (oneByte.buf.read a).isSome = true ↔ a < 1
  rw [oneByte_read]
  simp

/-- A state with one byte holds the message of that byte, whatever the host presents. -/
theorem oneByte_holds (inbox : List HostEvent) : ({ oneByte with inbox := inbox } : State).Holds [0x61#8] where
  len := rfl
  fill := rfl
  wf := show oneByte.buf.wf by decide
  slots := oneByte_read
  chaining _ := rfl
  digest h := absurd h Bool.false_ne_true

theorem witness_EveryStepKeepsHoldingTheMessage : (withCommand oneByte 0x2062).Holds [0x61#8] ∧
    (withCommand oneByte 0x2062).inbox = .command 0x2062 :: [] ∧
    step (withCommand oneByte 0x2062) = .next { State.reset with
      buf := [(0, 0x61#8), (1, 0x62#8)], buflen := 2, len := 16, responses := [⟨.ok, 0⟩] } :=
  ⟨oneByte_holds _, rfl, rfl⟩

/-- The numbers of blocks on both sides of the boundary (R102: 119 and 120 bytes). -/
theorem witness_PaddedMessageHasTheStatedNumberOfBlocks :
    (zeros 119).length % 64 ≤ 55 ∧ 56 ≤ (zeros 120).length % 64 ∧
    compressionCount 119 = 2 ∧ compressionCount 120 = 3 := by decide

theorem witness_ChunkAppendsToTheMessage :
    ({ oneByte with inbox := [.command 0x2062, .command 0x2063, .reset] } : State).Holds [0x61#8] ∧
    oneByte.fin = false ∧
    [HostEvent.command 0x2062, .command 0x2063, .reset] = commandsOf (updateInstrs [0x62, 0x63]) ++ [.reset] :=
  ⟨oneByte_holds _, rfl, by decide⟩

theorem witness_OneShotHashesTheMessage :
    [HostEvent.command 0x1000, .command 0x2061, .command 0x3000, .command 0x4000, .command 0x4001, .command 0x4002,
      .command 0x4003, .command 0x4004, .reset] = commandsOf (sha1Instrs [0x61]) ++ [.reset] := by decide

/-- The last byte and the last digit of a digest. -/
theorem witness_digest_positions : (19 < 20) ∧ (39 < 40) ∧
    (digestBytes iv)[19]? = some 0xF0#8 ∧ (hex40 iv)[39]? = some '0' := by decide

end Sys2Proof.Tests
end

section
/-! SUPPORT. The decoder and the encoder against each other: a word decodes to a command exactly when it is that
command's word, and the mask check of R59 calls exactly those words legal. -/

namespace Sys2Proof

/-- Decoding undoes encoding (R57, R60). -/
@[simp] theorem decode_encode (i : Instr) : decode (encode i) = .instr i := by
  cases i with
  | init => decide
  | updb d => revert d; decide
  | final => decide
  | rdr r => cases r <;> decide

@[simp] theorem encode_inj {i j : Instr} : encode i = encode j ↔ i = j := by
  refine ⟨fun h => ?_, congrArg encode⟩
  have hd := congrArg decode h
  rwa [decode_encode, decode_encode, Decoded.instr.injEq] at hd

/-- The operand byte of RDR from its two fields (R58). -/
theorem argField_eq_append (w : CmdWord) : argField w = regHighField w ++ regField w := by
  apply BitVec.eq_of_toNat_eq
  have hlow := (regField w).isLt
  rw [BitVec.toNat_append, ← Nat.shiftLeft_add_eq_or_of_lt hlow, Nat.shiftLeft_eq, argField_toNat, regHighField_toNat,
    regField_toNat]
  omega

/-- Encoding undoes decoding (R57, R60). -/
theorem encode_of_decode {w : CmdWord} {i : Instr} (h : decode w = .instr i) : w = encode i := by
  rcases decode_cases w with
    ⟨_, e⟩ | ⟨hr, ho, ha, e⟩ | ⟨_, _, _, e⟩ | ⟨hr, ho, e⟩ | ⟨hr, ho, ha, e⟩ | ⟨_, _, _, e⟩ | ⟨hr, ho, ha, e⟩ |
    ⟨_, _, _, e⟩ | ⟨_, _, e⟩
  · exact nomatch e.symm.trans h
  · obtain rfl := Decoded.instr.inj (e.symm.trans h)
    rw [word_of_fields w, hr, ho, ha]; rfl
  · exact nomatch e.symm.trans h
  · obtain rfl := Decoded.instr.inj (e.symm.trans h)
    conv_lhs => rw [word_of_fields w, hr, ho]
    rfl
  · obtain rfl := Decoded.instr.inj (e.symm.trans h)
    rw [word_of_fields w, hr, ho, ha]; rfl
  · exact nomatch e.symm.trans h
  · obtain rfl := Decoded.instr.inj (e.symm.trans h)
    rw [encode, Reg.number_ofNumber]
    conv_lhs => rw [word_of_fields w, hr, ho, argField_eq_append, ha]
    generalize regField w = v
    revert v; decide
  · exact nomatch e.symm.trans h
  · exact nomatch e.symm.trans h

/-- A word is illegal exactly when it is no command's word. -/
theorem decode_illegal_iff {w : CmdWord} : (∃ why, decode w = .illegal why) ↔ ∀ i, w ≠ encode i := by
  cases hd : decode w with
  | instr i => simpa using ⟨i, encode_of_decode hd⟩
  | illegal why =>
    refine ⟨fun _ i hi => ?_, fun _ => ⟨why, rfl⟩⟩
    rw [hi, decode_encode] at hd
    cases hd

/-- A row of the opcode map constrains each field of the word by its own bits of the mask (R57). -/
theorem fields_of_selects {r : OpcodeRow} {w : CmdWord} (h : r.selects w = true) :
    opField w &&& opField r.mask = opField r.pattern ∧ rsvField w &&& rsvField r.mask = rsvField r.pattern ∧
    argField w &&& argField r.mask = argField r.pattern ∧
    regHighField w &&& regHighField r.mask = regHighField r.pattern := by
  have hw : w &&& r.mask = r.pattern := by simpa [OpcodeRow.selects] using h
  simp only [← hw, opField, rsvField, argField, regHighField, BitVec.extractLsb'_and, and_self]

/-- A field under a full mask is its pattern. -/
theorem eq_of_and_full {n : Nat} {x m p : BitVec n} (h : x &&& m = p) (hm : m = BitVec.allOnes n) : x = p := by
  rw [← h, hm, BitVec.and_allOnes]

/-- A word that matches a row of the opcode map decodes to a command (R59). -/
theorem exists_decode_of_legalWord {w : CmdWord} (h : legalWord w = true) : ∃ i, decode w = .instr i := by
  obtain ⟨r, hmem, hsel⟩ := List.any_eq_true.mp h
  obtain ⟨hop, hrsv, harg, hreg⟩ := fields_of_selects hsel
  simp only [opcodeRows, List.mem_cons, List.not_mem_nil, or_false] at hmem
  have hr : rsvField w = 0 := by
    rcases hmem with rfl | rfl | rfl | rfl <;> exact eq_of_and_full hrsv rfl
  rcases hmem with rfl | rfl | rfl | rfl
  · have ho : opField w = 1 := eq_of_and_full hop rfl
    have ha : argField w = 0 := eq_of_and_full harg rfl
    exact ⟨.init, by simp [decode, hr, ho, ha]⟩
  · have ho : opField w = 2 := eq_of_and_full hop rfl
    exact ⟨.updb (argField w), by simp [decode, hr, ho]⟩
  · have ho : opField w = 3 := eq_of_and_full hop rfl
    have ha : argField w = 0 := eq_of_and_full harg rfl
    exact ⟨.final, by simp [decode, hr, ho, ha]⟩
  · have ho : opField w = 4 := eq_of_and_full hop rfl
    have ha : regHighField w = 0 := eq_of_and_full hreg rfl
    exact ⟨.rdr (Reg.ofNumber (regField w)), by simp [decode, hr, ho, ha]⟩

@[simp] theorem legalWord_encode (i : Instr) : legalWord (encode i) = true := by
  cases i with
  | init => exact Laws.EncodingRow.init.2.1
  | updb d => exact (Laws.EncodingRow.updb d).2.1
  | final => exact Laws.EncodingRow.final.2.1
  | rdr r => exact (Laws.EncodingRow.rdr r).2.1

/-- The mask check refuses exactly the words that are no command's word (R57, R59). -/
theorem legalWord_eq_false_iff {w : CmdWord} : legalWord w = false ↔ ∀ i, w ≠ encode i := by
  refine ⟨fun h i hi => ?_, fun h => Bool.eq_false_iff.mpr fun hl => ?_⟩
  · rw [hi, legalWord_encode] at h
    cases h
  · obtain ⟨i, hi⟩ := exists_decode_of_legalWord hl
    exact h i (encode_of_decode hi)

end Sys2Proof
end

section
/-! SUPPORT. The step as a relation with one named constructor per rule, its events written as the words the host
presents. It is inverted and built once here; the statements about single registers are case splits over it. -/

namespace Sys2Proof.Machine

/-- The step of a state `s` whose inbox is the event `e` followed by `rest`: each rule with its next state. -/
inductive Transition (s : State) (rest : List HostEvent) : HostEvent → State → Prop
  /-- The reset event (R140). -/
  | reset : Transition s rest .reset { s with inbox := rest }.initialise
  /-- INIT (R96). -/
  | init : Transition s rest (.command (encode .init)) ({ s with inbox := rest }.initialise.respond .ok 0)
  /-- UPDB with room for another byte (R97). -/
  | append (d : Byte) (active : s.fin = false) (room : s.buflen.toNat + 1 ≠ 64) :
      Transition s rest (.command (encode (.updb d))) { s with
        len := s.len + 8
        buf := s.buf.write s.buflen.toNat d
        buflen := BitVec.ofNat 6 (s.buflen.toNat + 1)
        inbox := rest
        responses := s.responses ++ [⟨.ok, 0⟩] }
  /-- UPDB with the 64th byte (R97, R48). -/
  | drain (d : Byte) (active : s.fin = false) (full : s.buflen.toNat + 1 = 64) :
      Transition s rest (.command (encode (.updb d))) { s with
        h := compress s.h (memRead (s.buf.write s.buflen.toNat d) 0 64)
        len := s.len + 8
        buf := []
        buflen := 0
        inbox := rest
        responses := s.responses ++ [⟨.ok, 0⟩] }
  /-- FINAL (R101). -/
  | final (active : s.fin = false) : Transition s rest (.command (encode .final)) { s with
        h := compressTail s.h (pad s.buf s.buflen.toNat s.len)
        fin := true
        inbox := rest
        responses := s.responses ++ [⟨.ok, 0⟩] }
  /-- UPDB or FINAL while FIN = 1 (R121). -/
  | estate (i : Instr) (cause : (∃ d, i = .updb d) ∨ i = .final) (finalized : s.fin = true) :
      Transition s rest (.command (encode i)) { s with
        err := true
        inbox := rest
        responses := s.responses ++ [⟨.estate, 0⟩] }
  /-- RDR (R110). -/
  | rdr (r : Reg) : Transition s rest (.command (encode (.rdr r))) { s with
        inbox := rest
        responses := s.responses ++ [⟨.ok, s.regValue r⟩] }
  /-- An illegal word (R122). -/
  | illegal (w : CmdWord) (cause : ∀ i, w ≠ encode i) : Transition s rest (.command w) { s with
        err := true
        inbox := rest
        responses := s.responses ++ [⟨.eillegal, 0⟩] }

/-- The word of a command runs that command (R61). -/
theorem step_encode {s : State} {i : Instr} {rest : List HostEvent} (hin : s.inbox = .command (encode i) :: rest) :
    step s = exec i { s with inbox := rest } := by
  rw [step_command hin, runCommand_instr (decode_encode i)]

/-- The relation is the step function, from left to right. -/
theorem Transition.step_eq {s t : State} {e : HostEvent} {rest : List HostEvent} (h : Transition s rest e t)
    (hin : s.inbox = e :: rest) : step s = .next t := by
  cases h with
  | reset => exact step_reset hin
  | init => exact step_encode hin
  | append d hf hn => exact (step_encode hin).trans (execUpdb_appends (s := { s with inbox := rest }) d hf hn)
  | drain d hf hn => exact (step_encode hin).trans (execUpdb_drains (s := { s with inbox := rest }) d hf hn)
  | final hf => exact (step_encode hin).trans (execFinal_active (s := { s with inbox := rest }) hf)
  | estate i hi hf =>
    rw [step_encode hin]
    obtain ⟨d, rfl⟩ | rfl := hi
    · exact execUpdb_finalized (s := { s with inbox := rest }) d hf
    · exact execFinal_finalized (s := { s with inbox := rest }) hf
  | rdr r => exact step_encode hin
  | illegal w hw =>
    obtain ⟨why, hd⟩ := decode_illegal_iff.mpr hw
    exact (step_command hin).trans (runCommand_illegal hd _)

/-- Every state with a pending event has a transition. -/
theorem exists_transition (s : State) (e : HostEvent) (rest : List HostEvent) : ∃ t, Transition s rest e t := by
  cases e with
  | reset => exact ⟨_, .reset⟩
  | command w =>
    cases hd : decode w with
    | illegal why => exact ⟨_, .illegal w (decode_illegal_iff.mp ⟨why, hd⟩)⟩
    | instr i =>
      obtain rfl := encode_of_decode hd
      cases i with
      | init => exact ⟨_, .init⟩
      | updb d =>
        cases hf : s.fin with
        | true => exact ⟨_, .estate _ (.inl ⟨d, rfl⟩) hf⟩
        | false =>
          by_cases hn : s.buflen.toNat + 1 = 64
          · exact ⟨_, .drain d hf hn⟩
          · exact ⟨_, .append d hf hn⟩
      | final =>
        cases hf : s.fin with
        | true => exact ⟨_, .estate _ (.inr rfl) hf⟩
        | false => exact ⟨_, .final hf⟩
      | rdr r => exact ⟨_, .rdr r⟩

/-- The relation is the step function, from right to left. -/
theorem transition_of_step {s t : State} {e : HostEvent} {rest : List HostEvent} (hin : s.inbox = e :: rest)
    (hs : step s = .next t) : Transition s rest e t := by
  obtain ⟨t', h⟩ := exists_transition s e rest
  have ht : Host.Outcome.next t' = .next t := (h.step_eq hin).symm.trans hs
  cases ht
  exact h

/-- Everything a step can do: it waits, or it makes a transition on the next event. -/
theorem step_next_cases {s t : State} (hs : step s = .next t) :
    (s.inbox = [] ∧ t = s) ∨ ∃ e rest, s.inbox = e :: rest ∧ Transition s rest e t := by
  cases hin : s.inbox with
  | nil =>
    have ht : Host.Outcome.next s = .next t := (step_idle hin).symm.trans hs
    cases ht
    exact .inl ⟨rfl, rfl⟩
  | cons e rest => exact .inr ⟨e, rest, rfl, transition_of_step hin hs⟩

/-- Every step answers a next state (R148). -/
theorem exists_step_next (s : State) : ∃ t, step s = .next t := by
  cases hin : s.inbox with
  | nil => exact ⟨s, step_idle hin⟩
  | cons e rest =>
    obtain ⟨t, h⟩ := exists_transition s e rest
    exact ⟨t, h.step_eq hin⟩

end Sys2Proof.Machine
end

section
/-! SUPPORT. The statements about what each rule writes: reset values, RDR, the flags, LEN, the hash state and the
digest's permanence. -/

namespace Sys2Proof.Machine

/-! The reset values -/

theorem initialise_atReset (s : State) : s.initialise.AtReset where
  h0 := rfl
  h1 := rfl
  h2 := rfl
  h3 := rfl
  h4 := rfl
  buflen := rfl
  len := rfl
  fin := rfl
  err := rfl
  noSlot _ := rfl

/-- The reset state is what initialisation leaves unchanged. -/
theorem initialise_reset : State.reset.initialise = State.reset := rfl

theorem respond_atReset {s : State} (h : s.AtReset) (c : Code) (x : Word) : (s.respond c x).AtReset := { h with }

/-- Settles O14: all three are `State.initialise`, up to the host's side of the port. -/
theorem resetAndInitLoadTheResetValues : Obligations.ResetAndInitLoadTheResetValues := by
  unfold Obligations.ResetAndInitLoadTheResetValues
  refine ⟨initialise_reset ▸ initialise_atReset State.reset, fun s => ?_, fun s rest hin => ?_⟩
  · exact ⟨_, execInit_eq s, respond_atReset (initialise_atReset s) .ok 0⟩
  · exact ⟨_, step_reset hin, initialise_atReset _, rfl, rfl⟩

/-! Reading a register -/

theorem lenHigh_toNat (len : LenWord) : (lenHigh len).toNat = len.toNat / 2 ^ 32 := by
  have := len.isLt
  simp only [lenHigh, BitVec.extractLsb'_toNat, Nat.shiftRight_eq_div_pow]
  omega

theorem lenLow_toNat (len : LenWord) : (lenLow len).toNat = len.toNat % 2 ^ 32 := by
  simp [lenLow, BitVec.extractLsb'_toNat]

/-- A concatenation as a number. -/
theorem append_toNat {m n : Nat} (x : BitVec m) (y : BitVec n) : (x ++ y).toNat = x.toNat * 2 ^ n + y.toNat := by
  rw [BitVec.toNat_append, ← Nat.shiftLeft_add_eq_or_of_lt y.isLt, Nat.shiftLeft_eq]

/-- STATUS as a number (R27). -/
theorem statusWord_toNat (fill : BitVec 6) (err fin : Bool) :
    (statusWord fill err fin).toNat = fin.toNat + 2 * err.toNat + 256 * fill.toNat := by
  simp only [statusWord, flagBit, append_toNat, BitVec.toNat_ofBool, BitVec.toNat_ofNat]
  omega

/-- Settles O20: the response carries `State.regValue`, whose numbers are those of R27, R112 and R113. -/
theorem rdrReturnsTheRegisterAndChangesNothing : Obligations.RdrReturnsTheRegisterAndChangesNothing := by
  unfold Obligations.RdrReturnsTheRegisterAndChangesNothing
  intro r s
  refine ⟨s.regValue r, execRdr_eq r s, ?_, ?_, ?_, ?_, ?_, ?_, ?_, ?_⟩ <;> rintro rfl
  · rfl
  · rfl
  · rfl
  · rfl
  · rfl
  · exact lenHigh_toNat s.len
  · exact lenLow_toNat s.len
  · exact statusWord_toNat s.buflen s.err s.fin

/-! What each rule writes -/

/-- A command's word causes an exception exactly while FIN = 1, and only for UPDB and FINAL (R121). -/
@[simp] theorem causesException_encode (i : Instr) (fin : Bool) :
    causesException (encode i) fin ↔ fin = true ∧ ((∃ d, i = .updb d) ∨ i = .final) := by
  simp [causesException]

/-- An illegal word causes an exception in either phase (R122). -/
theorem causesException_of_illegal {w : CmdWord} (h : ∀ i, w ≠ encode i) (fin : Bool) : causesException w fin :=
  .inl (legalWord_eq_false_iff.mpr h)

/-- Settles O26: FINAL's rule alone sets FIN, those of INIT and reset alone clear it. -/
theorem finIsWrittenOnlyByFinalInitAndReset : Obligations.FinIsWrittenOnlyByFinalInitAndReset := by
  unfold Obligations.FinIsWrittenOnlyByFinalInitAndReset
  intro s t e rest hin hs
  cases transition_of_step hin hs with
  | reset => simp
  | init => simp
  | append d hf => simp [hf]
  | drain d hf => simp [hf]
  | final hf => simp [hf]
  | estate i hi hf =>
    obtain ⟨d, rfl⟩ | rfl := hi <;> simp [hf]
  | rdr r => simp
  | illegal w hw => simp [hw]

/-- Settles O27: an exception is the `estate` or the `illegal` rule, and these are the rules that set ERR. -/
theorem errIsStickyUntilInitOrReset : Obligations.ErrIsStickyUntilInitOrReset := by
  unfold Obligations.ErrIsStickyUntilInitOrReset
  intro s t e rest hin hs
  cases transition_of_step hin hs with
  | reset => simp
  | init => simp
  | append d hf => simp [hf]
  | drain d hf => simp [hf]
  | final hf => simp [hf]
  | estate i hi hf =>
    obtain ⟨d, rfl⟩ | rfl := hi <;> simp [hf]
  | rdr r => simp
  | illegal w hw => simp [hw, causesException_of_illegal hw s.fin]

/-- Settles O29: the two rules of an accepted UPDB add 8 to LEN, initialisation clears it, no other rule writes it. -/
theorem lenCountsAcceptedBytesOnly : Obligations.LenCountsAcceptedBytesOnly := by
  unfold Obligations.LenCountsAcceptedBytesOnly
  intro s t e rest hin hs
  cases transition_of_step hin hs with
  | reset => simp
  | init => simp
  | append d hf => simp [hf]
  | drain d hf => simp [hf]
  | final hf => simp
  | estate i hi hf =>
    obtain ⟨d, rfl⟩ | rfl := hi <;> simp [hf]
  | rdr r => simp
  | illegal w hw => simp [hw]

/-- Settles O30: the rules that leave the hash state are excluded by the changed H, each other one is a named cause. -/
theorem hashStateChangesOnlyWhenABlockIsCompressed : Obligations.HashStateChangesOnlyWhenABlockIsCompressed := by
  unfold Obligations.HashStateChangesOnlyWhenABlockIsCompressed
  intro s t e rest hin hs hne
  cases transition_of_step hin hs with
  | reset => exact .inl rfl
  | init => exact .inr (.inl rfl)
  | append => exact absurd rfl hne
  | drain d hf hn => exact .inr (.inr (.inr ⟨hf, by omega, d, rfl⟩))
  | final hf => exact .inr (.inr (.inl ⟨hf, rfl⟩))
  | estate => exact absurd rfl hne
  | rdr => exact absurd rfl hne
  | illegal => exact absurd rfl hne

/-- Settles O31: with FIN = 1 and no INIT only the rules of an exception and of RDR are left, and these write ERR, the
inbox and the responses alone. -/
theorem digestIsImmutableUntilInitOrReset : Obligations.DigestIsImmutableUntilInitOrReset := by
  unfold Obligations.DigestIsImmutableUntilInitOrReset
  intro s t w rest hfin hin hw hs
  cases transition_of_step hin hs with
  | init => exact absurd rfl hw
  | append d hf => exact absurd (hfin.symm.trans hf) nofun
  | drain d hf => exact absurd (hfin.symm.trans hf) nofun
  | final hf => exact absurd (hfin.symm.trans hf) nofun
  | estate => exact ⟨rfl, rfl, rfl, rfl, fun _ => rfl⟩
  | rdr => exact ⟨rfl, rfl, rfl, rfl, fun _ => rfl⟩
  | illegal => exact ⟨rfl, rfl, rfl, rfl, fun _ => rfl⟩

/-- Every register but STATUS reads the same whatever ERR is (R26, R27). -/
theorem regValue_err {r : Reg} (hr : r ≠ .status) (s : State) (b : Bool) :
    ({ s with err := b } : State).regValue r = s.regValue r := by
  cases r with
  | status => exact absurd rfl hr
  | _ => rfl

/-- Each rule answers the same from a state with another ERR, up to ERR itself and the value of STATUS (R126). -/
theorem Transition.of_err {s t : State} {e : HostEvent} {rest : List HostEvent} (h : Transition s rest e t) (b : Bool) :
    ∃ t', Transition { s with err := b } rest e t' ∧
      (e ≠ .command (encode (.rdr .status)) → t' = { t with err := t'.err }) ∧
      t' = { t with err := t'.err, responses := t'.responses } := by
  cases h with
  | reset => exact ⟨_, .reset, fun _ => rfl, rfl⟩
  | init => exact ⟨_, .init, fun _ => rfl, rfl⟩
  | append d hf hn => exact ⟨_, .append d hf hn, fun _ => rfl, rfl⟩
  | drain d hf hn => exact ⟨_, .drain d hf hn, fun _ => rfl, rfl⟩
  | final hf => exact ⟨_, .final hf, fun _ => rfl, rfl⟩
  | estate i hi hf => exact ⟨_, .estate i hi hf, fun _ => rfl, rfl⟩
  | rdr r =>
    refine ⟨_, .rdr r, fun hne => ?_, rfl⟩
    have hr : r ≠ .status := fun h => hne (by rw [h])
    rw [regValue_err hr]
  | illegal w hw => exact ⟨_, .illegal w hw, fun _ => rfl, rfl⟩

/-- Settles O28, by `Transition.of_err`. -/
theorem errGatesNothing : Obligations.ErrGatesNothing := by
  unfold Obligations.ErrGatesNothing
  intro s t b hs
  obtain ⟨hin, rfl⟩ | ⟨e, rest, hin, htr⟩ := step_next_cases hs
  · exact ⟨_, step_idle hin, fun _ => rfl, rfl⟩
  · obtain ⟨t', htr', hne, hall⟩ := htr.of_err b
    refine ⟨t', htr'.step_eq hin, fun h => hne fun he => h ?_, hall⟩
    rw [hin, he, List.head?_cons]

end Sys2Proof.Machine
end

section
/-! SUPPORT. The invariant of R32 (b), and that no rule reads an invalid slot (R22). -/

namespace Sys2Proof.Machine

/-! The invariant -/

theorem initialise_inv (s : State) : s.initialise.Inv where
  buffer := ⟨Memory.wf_nil, fun a => by simp⟩
  length := rfl

/-- The invariant speaks of BUF, BUFLEN and LEN only. -/
theorem State.Inv.congr {s t : State} (hs : s.Inv) (hbuf : t.buf = s.buf) (hfill : t.buflen = s.buflen)
    (hlen : t.len = s.len) : t.Inv := by
  obtain ⟨hb, hl⟩ := hs
  exact ⟨by rwa [hbuf, hfill], by rwa [hlen, hfill]⟩

/-- A store to the first invalid slot makes exactly that slot valid. -/
theorem Buffer.exact_write {m : Memory} {n : Nat} (d : Byte) (hm : Buffer.exact m n) (hn : n < 64) :
    Buffer.exact (m.write n d) (n + 1) := by
  obtain ⟨hwf, hvalid⟩ := hm
  refine ⟨Memory.wf_write d hwf hn, fun a => ?_⟩
  rw [Memory.read_write]
  split_ifs with ha
  · subst ha; simp
  · rw [hvalid a]; omega

/-- LEN after one byte, modulo the 512 bits of a block (R104). -/
theorem len_add_eight_mod (len : LenWord) : (len + 8).toNat % 512 = (len.toNat + 8) % 512 := by
  rw [BitVec.toNat_add, show (8 : LenWord).toNat = 8 from rfl]
  omega

theorem Transition.inv {s t : State} {e : HostEvent} {rest : List HostEvent} (h : Transition s rest e t)
    (hs : s.Inv) : t.Inv := by
  cases h with
  | reset => exact initialise_inv _
  | init => exact (initialise_inv s).congr rfl rfl rfl
  | append d _ hn =>
    obtain ⟨hbuf, hlen⟩ := hs
    have hfill := s.buflen.isLt
    refine ⟨?_, ?_⟩ <;> simp only [buflen_succ s.buflen hn]
    · exact Buffer.exact_write d hbuf hfill
    · rw [len_add_eight_mod]; omega
  | drain d _ hn =>
    refine ⟨⟨Memory.wf_nil, fun a => by simp⟩, ?_⟩
    have hlen := hs.length
    show (s.len + 8).toNat % 512 = 0
    rw [len_add_eight_mod]; omega
  | final => exact hs.congr rfl rfl rfl
  | estate => exact hs.congr rfl rfl rfl
  | rdr => exact hs.congr rfl rfl rfl
  | illegal => exact hs.congr rfl rfl rfl

/-- Settles O33, rule by rule (`Transition.inv`). -/
theorem everyStepKeepsTheInvariant : Obligations.EveryStepKeepsTheInvariant := by
  unfold Obligations.EveryStepKeepsTheInvariant
  intro s t hs hstep
  obtain ⟨-, rfl⟩ | ⟨e, rest, -, htr⟩ := step_next_cases hstep
  · exact hs
  · exact htr.inv hs

/-! Invalid slots -/

/-- Two buffers agree on the slots below `n`. -/
def Memory.AgreeBelow (n : Nat) (m m' : Memory) : Prop := ∀ a, a < n → m.slot a = m'.slot a

/-- States that agree but for invalid slots are one state with two buffers. -/
theorem sameButStale_iff {s s' : State} :
    SameButStale s s' ↔ ∃ m, Memory.AgreeBelow s.buflen.toNat s.buf m ∧ s' = { s with buf := m } := by
  constructor
  · intro ⟨hh, hfill, hlen, hfin, herr, hin, hresp, hvalid⟩
    refine ⟨s'.buf, hvalid, ?_⟩
    rw [hh, hfill, hlen, hfin, herr, hin, hresp]
  · rintro ⟨m, hm, rfl⟩
    exact ⟨rfl, rfl, rfl, rfl, rfl, rfl, rfl, hm⟩

theorem SameButStale.refl (s : State) : SameButStale s s := sameButStale_iff.mpr ⟨s.buf, fun _ _ => rfl, rfl⟩

/-- The same byte stored at the end of the valid slots keeps the agreement, one slot further. -/
theorem Memory.AgreeBelow.write {n : Nat} {m m' : Memory} (h : Memory.AgreeBelow n m m') (d : Byte) :
    Memory.AgreeBelow (n + 1) (m.write n d) (m'.write n d) := by
  intro a ha
  rw [Memory.slot_write, Memory.slot_write]
  split_ifs with hn
  · rfl
  · exact h a (by omega)

theorem Memory.AgreeBelow.memRead_eq {n : Nat} {m m' : Memory} (h : Memory.AgreeBelow n m m') :
    memRead m 0 n = memRead m' 0 n :=
  memRead_congr fun i hi => h (0 + i) (by omega)

/-- Each rule answers alike from a state with another buffer of the same valid bytes (R22). -/
theorem Transition.of_buf {s t : State} {e : HostEvent} {rest : List HostEvent} (h : Transition s rest e t)
    {m : Memory} (hm : Memory.AgreeBelow s.buflen.toNat s.buf m) :
    ∃ t', Transition { s with buf := m } rest e t' ∧ SameButStale t t' := by
  cases h with
  | reset => exact ⟨_, .reset, SameButStale.refl _⟩
  | init => exact ⟨_, .init, SameButStale.refl _⟩
  | append d hf hn =>
    refine ⟨_, .append d hf hn, sameButStale_iff.mpr ⟨m.write s.buflen.toNat d, ?_, rfl⟩⟩
    rw [buflen_succ s.buflen hn]
    exact hm.write d
  | drain d hf hn =>
    refine ⟨_, .drain d hf hn, ?_⟩
    have hblock : memRead (s.buf.write s.buflen.toNat d) 0 64 = memRead (m.write s.buflen.toNat d) 0 64 :=
      hn ▸ (hm.write d).memRead_eq
    rw [hblock]
    exact SameButStale.refl _
  | final hf =>
    refine ⟨_, .final hf, sameButStale_iff.mpr ⟨m, hm, ?_⟩⟩
    rw [pad_congr s.len hm]
  | estate i hi hf => exact ⟨_, .estate i hi hf, sameButStale_iff.mpr ⟨m, hm, rfl⟩⟩
  | rdr r => exact ⟨_, .rdr r, sameButStale_iff.mpr ⟨m, hm, by cases r <;> rfl⟩⟩
  | illegal w hw => exact ⟨_, .illegal w hw, sameButStale_iff.mpr ⟨m, hm, rfl⟩⟩

/-- Settles O32, by `Transition.of_buf`. -/
theorem staleSlotsAreNeverRead : Obligations.StaleSlotsAreNeverRead := by
  unfold Obligations.StaleSlotsAreNeverRead
  intro s s' h
  obtain ⟨m, hm, rfl⟩ := sameButStale_iff.mp h
  obtain ⟨t, hs⟩ := exists_step_next s
  obtain ⟨hin, rfl⟩ | ⟨e, rest, hin, htr⟩ := step_next_cases hs
  · exact ⟨t, _, hs, step_idle hin, h⟩
  · obtain ⟨t', htr', hsame⟩ := htr.of_buf hm
    exact ⟨t, t', hs, htr'.step_eq hin, hsame⟩

end Sys2Proof.Machine
end

section
/-! SUPPORT. The message a state holds (R12, R32 (d)): how the chaining value, the hash and the state follow one byte
and one FINAL. -/

namespace Sys2Proof.Machine

/-! The message's chaining value and hash -/

/-- The bytes of a message after its last full block. -/
def lastPartial (M : List Byte) : List Byte := M.drop (64 * (M.length / 64))

@[simp] theorem lastPartial_length (M : List Byte) : (lastPartial M).length = M.length % 64 := by
  rw [lastPartial, List.length_drop]
  omega

/-- Another byte extends the last partial block, whether or not it fills it. -/
theorem drop_append_singleton (M : List Byte) (d : Byte) :
    (M ++ [d]).drop (64 * (M.length / 64)) = lastPartial M ++ [d] :=
  List.drop_append_of_le_length (by omega)

theorem lastPartial_append {M : List Byte} (d : Byte) (h : M.length % 64 + 1 ≠ 64) :
    lastPartial (M ++ [d]) = lastPartial M ++ [d] := by
  rw [lastPartial, List.length_append, List.length_singleton, show (M.length + 1) / 64 = M.length / 64 by omega,
    drop_append_singleton]

theorem lastPartial_append_full {M : List Byte} (d : Byte) (h : M.length % 64 + 1 = 64) :
    lastPartial (M ++ [d]) = [] := by
  rw [← List.length_eq_zero_iff, lastPartial_length, List.length_append, List.length_singleton]
  omega

theorem bitLength_append (M : List Byte) (d : Byte) : bitLength (M ++ [d]) = bitLength M + 8 := by
  rw [bitLength, List.length_append, List.length_singleton, Nat.mul_add, BitVec.ofNat_add]
  rfl

/-- A byte that completes no block leaves the chaining value. -/
theorem chainingValue_append {M : List Byte} (d : Byte) (h : M.length % 64 + 1 ≠ 64) :
    chainingValue (M ++ [d]) = chainingValue M := by
  rw [chainingValue, List.length_append, List.length_singleton, show (M.length + 1) / 64 = M.length / 64 by omega,
    foldBlocks_append _ _ _ _ (by omega), chainingValue]

/-- The 64th byte of a block has the block compressed (R48). -/
theorem chainingValue_append_full {M : List Byte} (d : Byte) (h : M.length % 64 + 1 = 64) :
    chainingValue (M ++ [d]) = compress (chainingValue M) (lastPartial M ++ [d]) := by
  have htake : (lastPartial M ++ [d]).take 64 = lastPartial M ++ [d] :=
    List.take_of_length_le (by rw [List.length_append, lastPartial_length, List.length_singleton]; omega)
  rw [chainingValue, List.length_append, List.length_singleton, show (M.length + 1) / 64 = M.length / 64 + 1 by omega,
    foldBlocks_add, foldBlocks_append _ _ _ _ (by omega), drop_append_singleton, foldBlocks, foldBlocks, htake,
    chainingValue]

/-- FINAL's compressions of a tail are a fold over its one or two blocks (R101). -/
theorem compressTail_eq_foldBlocks (S : HashState) {T : List Byte} {k : Nat} (hk : k = 1 ∨ k = 2)
    (hT : T.length = 64 * k) : compressTail S T = foldBlocks k S T := by
  obtain rfl | rfl := hk
  · rw [compressTail_one S hT, foldBlocks, foldBlocks, List.take_of_length_le (by omega)]
  · rw [compressTail_two S hT, foldBlocks, foldBlocks, foldBlocks,
      List.take_of_length_le (l := T.drop 64) (by rw [List.length_drop]; omega)]

/-- The hash of a message is its chaining value with the padded last block compressed into it (R101, R102). -/
theorem sha1_eq_compressTail (M : List Byte) {m : Memory}
    (hm : memRead m 0 (M.length % 64) = lastPartial M) :
    sha1 M = compressTail (chainingValue M) (pad m (M.length % 64) (bitLength M)) := by
  have hlt : M.length % 64 < 64 := Nat.mod_lt _ (by decide)
  have htail : (padMessage M).drop (64 * (M.length / 64)) = pad m (M.length % 64) (bitLength M) := by
    rw [pad, hm, padMessage, lastPartial]
    simp only [List.append_assoc]
    exact List.drop_append_of_le_length (by omega)
  have hfold : foldBlocks (M.length / 64) iv (padMessage M) = chainingValue M := by
    rw [padMessage, List.append_assoc, List.append_assoc, foldBlocks_append _ _ _ _ (by omega), chainingValue]
  obtain ⟨k, hk, hcount, hlen⟩ : ∃ k, (k = 1 ∨ k = 2) ∧ compressionCount M.length = M.length / 64 + k ∧
      (pad m (M.length % 64) (bitLength M)).length = 64 * k := by
    rw [pad_length m (bitLength M) hlt, compressionCount]
    split_ifs with h
    · exact ⟨1, .inl rfl, by omega, rfl⟩
    · exact ⟨2, .inr rfl, by omega, rfl⟩
  rw [sha1, hcount, foldBlocks_add, hfold, htail, compressTail_eq_foldBlocks _ hk hlen]

/-- MemRead of slots that hold a byte sequence is that sequence. -/
theorem memRead_eq_of_read {m : Memory} {L : List Byte} (h : ∀ a, m.read a = L[a]?) : memRead m 0 L.length = L := by
  refine List.ext_getElem (by simp) fun i _ hi => ?_
  have hslot : m.slot i = L[i] := Memory.slot_of_read (by rw [h, List.getElem?_eq_getElem hi])
  simpa [memRead] using hslot

/-! The message after each event -/

section
variable (M : List Byte) (fin : Bool)

@[simp] theorem messageAfter_init : messageAfter M fin (.command (encode .init)) = [] := by
  simp [messageAfter]

@[simp] theorem messageAfter_updb (d : Byte) :
    messageAfter M fin (.command (encode (.updb d))) = if fin then M else M ++ [d] := by
  simp [messageAfter]

@[simp] theorem messageAfter_final : messageAfter M fin (.command (encode .final)) = M := by
  simp [messageAfter]

@[simp] theorem messageAfter_rdr (r : Reg) : messageAfter M fin (.command (encode (.rdr r))) = M := by
  simp [messageAfter]

theorem messageAfter_illegal {w : CmdWord} (h : ∀ i, w ≠ encode i) : messageAfter M fin (.command w) = M := by
  obtain ⟨why, hd⟩ := decode_illegal_iff.mpr h
  simp [messageAfter, hd]

end

/-! The state that holds the message -/

theorem initialise_holds_nil (s : State) : s.initialise.Holds [] where
  len := rfl
  fill := rfl
  wf := Memory.wf_nil
  slots _ := rfl
  chaining _ := rfl
  digest h := absurd h Bool.false_ne_true

/-- What a state holds depends on H, BUF, BUFLEN, LEN and FIN only. -/
theorem State.Holds.congr {s t : State} {M : List Byte} (hs : s.Holds M) (hh : t.h = s.h) (hbuf : t.buf = s.buf)
    (hfill : t.buflen = s.buflen) (hlen : t.len = s.len) (hfin : t.fin = s.fin) : t.Holds M := by
  obtain ⟨len, fill, wf, slots, chaining, digest⟩ := hs
  constructor
  · rwa [hlen]
  · rwa [hfill]
  · rwa [hbuf]
  · rwa [hbuf]
  · rwa [hh, hfin]
  · rwa [hh, hfin]

/-- The valid slots, read in order, are the message's last partial block (R32 (d)). -/
theorem State.Holds.memRead_buf {s : State} {M : List Byte} (hs : s.Holds M) :
    memRead s.buf 0 (M.length % 64) = lastPartial M := by
  rw [← lastPartial_length]
  exact memRead_eq_of_read hs.slots

/-- A store behind the slots that hold a byte sequence holds the sequence with one more byte. -/
theorem read_write_append {m : Memory} {L : List Byte} (h : ∀ a, m.read a = L[a]?) (d : Byte) (a : Nat) :
    (m.write L.length d).read a = (L ++ [d])[a]? := by
  rw [Memory.read_write, h]
  split_ifs with ha
  · rw [ha, List.getElem?_concat_length]
  · obtain hlt | hgt := Nat.lt_or_gt_of_ne ha
    · rw [List.getElem?_append_left hlt]
    · rw [List.getElem?_eq_none (by omega), List.getElem?_eq_none (by simp; omega)]

/-- UPDB with room for another byte (R97). -/
theorem State.Holds.append {s : State} {M : List Byte} (hs : s.Holds M) (d : Byte) (hfin : s.fin = false)
    (hroom : s.buflen.toNat + 1 ≠ 64) (inbox : List HostEvent) (responses : List Response) :
    ({ s with
      len := s.len + 8
      buf := s.buf.write s.buflen.toNat d
      buflen := BitVec.ofNat 6 (s.buflen.toNat + 1)
      inbox := inbox
      responses := responses } : State).Holds (M ++ [d]) := by
  have hroomM : M.length % 64 + 1 ≠ 64 := hs.fill ▸ hroom
  constructor
  case len => rw [hs.len, bitLength_append]
  case fill =>
    rw [buflen_succ _ hroom, hs.fill, List.length_append, List.length_singleton]
    omega
  case wf => exact Memory.wf_write d hs.wf s.buflen.isLt
  case slots =>
    intro a
    show _ = (lastPartial (M ++ [d]))[a]?
    rw [lastPartial_append d hroomM, hs.fill, ← lastPartial_length]
    exact read_write_append hs.slots d a
  case chaining =>
    intro _
    rw [hs.chaining hfin, chainingValue_append d hroomM]
  case digest => exact fun h => absurd (hfin.symm.trans h) Bool.false_ne_true

/-- UPDB with the 64th byte (R97, R48). -/
theorem State.Holds.drain {s : State} {M : List Byte} (hs : s.Holds M) (d : Byte) (hfin : s.fin = false)
    (hfull : s.buflen.toNat + 1 = 64) (inbox : List HostEvent) (responses : List Response) :
    ({ s with
      h := compress s.h (memRead (s.buf.write s.buflen.toNat d) 0 64)
      len := s.len + 8
      buf := []
      buflen := 0
      inbox := inbox
      responses := responses } : State).Holds (M ++ [d]) := by
  have hfullM : M.length % 64 + 1 = 64 := hs.fill ▸ hfull
  constructor
  case len => rw [hs.len, bitLength_append]
  case fill =>
    rw [List.length_append, List.length_singleton]
    show 0 = _
    omega
  case wf => exact Memory.wf_nil
  case slots =>
    intro a
    show _ = (lastPartial (M ++ [d]))[a]?
    rw [lastPartial_append_full d hfullM]
    rfl
  case chaining =>
    intro _
    have h63 : M.length % 64 = 63 := by omega
    have hblock := hs.memRead_buf
    rw [h63] at hblock
    rw [hs.chaining hfin, hs.fill, h63, memRead_drained, hblock, chainingValue_append_full d hfullM]
  case digest => exact fun h => absurd (hfin.symm.trans h) Bool.false_ne_true

/-- FINAL (R101). -/
theorem State.Holds.final {s : State} {M : List Byte} (hs : s.Holds M) (hfin : s.fin = false)
    (inbox : List HostEvent) (responses : List Response) :
    ({ s with
      h := compressTail s.h (pad s.buf s.buflen.toNat s.len)
      fin := true
      inbox := inbox
      responses := responses } : State).Holds M where
  len := hs.len
  fill := hs.fill
  wf := hs.wf
  slots := hs.slots
  chaining h := absurd h.symm Bool.false_ne_true
  digest _ := by rw [sha1_eq_compressTail M hs.memRead_buf, hs.chaining hfin, hs.fill, hs.len]

/-- Each rule keeps the state holding the message after its event (R12, R32 (d)). -/
theorem Transition.holds {s t : State} {e : HostEvent} {rest : List HostEvent} {M : List Byte}
    (h : Transition s rest e t) (hs : s.Holds M) : t.Holds (messageAfter M s.fin e) := by
  cases h with
  | reset => exact initialise_holds_nil _
  | init =>
    rw [messageAfter_init]
    exact (initialise_holds_nil s).congr rfl rfl rfl rfl rfl
  | append d hf hn =>
    rw [messageAfter_updb, hf, if_neg Bool.false_ne_true]
    exact hf ▸ hs.append d hf hn _ _
  | drain d hf hn =>
    rw [messageAfter_updb, hf, if_neg Bool.false_ne_true]
    exact hf ▸ hs.drain d hf hn _ _
  | final hf =>
    rw [messageAfter_final]
    exact hs.final hf _ _
  | estate i hi hf =>
    have hM : messageAfter M s.fin (.command (encode i)) = M := by
      obtain ⟨d, rfl⟩ | rfl := hi
      · rw [messageAfter_updb, if_pos hf]
      · exact messageAfter_final M s.fin
    rw [hM]
    exact hs.congr rfl rfl rfl rfl rfl
  | rdr r =>
    rw [messageAfter_rdr]
    exact hs.congr rfl rfl rfl rfl rfl
  | illegal w hw =>
    rw [messageAfter_illegal M s.fin hw]
    exact hs.congr rfl rfl rfl rfl rfl

/-- Settles O35, rule by rule (`Transition.holds`). -/
theorem everyStepKeepsHoldingTheMessage : Obligations.EveryStepKeepsHoldingTheMessage := by
  unfold Obligations.EveryStepKeepsHoldingTheMessage
  intro s t M e rest hs hin hstep
  exact (transition_of_step hin hstep).holds hs

/-- Settles O34: the reset state is an initialised state. -/
theorem resetMeetsTheInvariants : Obligations.ResetMeetsTheInvariants := by
  unfold Obligations.ResetMeetsTheInvariants
  rw [← initialise_reset]
  exact ⟨initialise_inv State.reset, initialise_holds_nil State.reset⟩

end Sys2Proof.Machine
end

section
/-! SUPPORT. The length field of the tail (R42): its bytes end the last block, and its two words are LENH and LENL. -/

namespace Sys2Proof.Machine

/-- Past `k` whole words, the words are those of the rest. -/
theorem wordBE_append_right {A : List Byte} {k : Nat} (hA : A.length = 4 * k) (B : List Byte) (j : Nat) :
    wordBE (A ++ B) (k + j) = wordBE B j := by
  have hbyte (i : Nat) : byteAt (A ++ B) (4 * (k + j) + i) = byteAt B (4 * j + i) := by
    rw [byteAt, byteAt, List.getD_append_right _ _ _ _ (by omega), hA,
      show 4 * (k + j) + i - 4 * k = 4 * j + i by omega]
  have hfirst : byteAt (A ++ B) (4 * (k + j)) = byteAt B (4 * j) := hbyte 0
  rw [wordBE, wordBE, hfirst, hbyte, hbyte, hbyte]

/-- Four bytes one below the other are a word (R8). -/
theorem extractLsb'_four_bytes {n : Nat} (x : BitVec n) (p : Nat) :
    x.extractLsb' (p + 24) 8 ++ x.extractLsb' (p + 16) 8 ++ x.extractLsb' (p + 8) 8 ++ x.extractLsb' p 8 =
      x.extractLsb' p 32 := by
  rw [BitVec.extractLsb'_append_extractLsb'_eq_extractLsb' (by omega),
    BitVec.extractLsb'_append_extractLsb'_eq_extractLsb' (by omega),
    BitVec.extractLsb'_append_extractLsb'_eq_extractLsb' (by omega)]

theorem wordBE_be64_zero (L : LenWord) : wordBE (be64 L) 0 = lenHigh L := extractLsb'_four_bytes L 32

theorem wordBE_be64_one (L : LenWord) : wordBE (be64 L) 1 = lenLow L := extractLsb'_four_bytes L 0

/-- The last block of the tail is 56 bytes and then the length field (R42, R100). -/
theorem pad_lastBlock (m : Memory) (L : LenWord) {n : Nat} (h : n < 64) :
    ∃ A : List Byte, A.length = 56 ∧ (pad m n L).drop ((pad m n L).length - 64) = A ++ be64 L := by
  have hlen : 64 ≤ (pad m n L).length := by
    rw [pad_length m L h]
    split_ifs <;> omega
  obtain ⟨P, hpad⟩ : ∃ P, pad m n L = P ++ be64 L := ⟨_, rfl⟩
  rw [hpad, List.length_append, be64_length] at hlen ⊢
  exact ⟨P.drop (P.length + 8 - 64), by rw [List.length_drop]; omega, List.drop_append_of_le_length (by omega)⟩

/-- Settles O19: words 14 and 15 of the last block are the two words of the length field (`pad_lastBlock`). -/
theorem lengthFieldIsTheLastTwoWords : Obligations.LengthFieldIsTheLastTwoWords := by
  unfold Obligations.LengthFieldIsTheLastTwoWords
  intro m n L hn
  obtain ⟨A, hA, hlast⟩ := pad_lastBlock m L hn
  have hhigh : wordBE (A ++ be64 L) 14 = lenHigh L := (wordBE_append_right hA _ 0).trans (wordBE_be64_zero L)
  have hlow : wordBE (A ++ be64 L) 15 = lenLow L := (wordBE_append_right hA _ 1).trans (wordBE_be64_one L)
  rw [hlast, hhigh, hlow]
  exact ⟨lenHigh_toNat L, lenLow_toNat L⟩

end Sys2Proof.Machine
end

section
/-! SUPPORT. The statements about the decoder: it inverts the encoder (R60), it follows mask and match (R57), its
refusals are the cases of R59, and a step runs what it answers (R61). -/

namespace Sys2Proof.Machine

/-- Settles O1, by `encode_of_decode` and `decode_encode`. -/
theorem decodeAndEncodeAreInverse : Obligations.DecodeAndEncodeAreInverse := by
  unfold Obligations.DecodeAndEncodeAreInverse
  intro w i
  refine ⟨encode_of_decode, fun h => ?_⟩
  rw [h, decode_encode]

/-! Mask and match -/

/-- The row's check is the equation of R57. -/
theorem selects_iff {r : OpcodeRow} {w : CmdWord} : r.selects w = true ↔ w &&& r.mask = r.pattern := beq_iff_eq

theorem row_mem_opcodeRows (i : Instr) : i.row ∈ opcodeRows := by
  cases i <;> simp [Instr.row, opcodeRows]

theorem row_selects_encode (i : Instr) : i.row.selects (encode i) = true := by
  cases i with
  | init => exact Laws.EncodingRow.init.1
  | updb d => exact (Laws.EncodingRow.updb d).1
  | final => exact Laws.EncodingRow.final.1
  | rdr r => exact (Laws.EncodingRow.rdr r).1

/-- Every row fixes all four bits of OP (R57). -/
theorem opField_mask {r : OpcodeRow} (hr : r ∈ opcodeRows) : opField r.mask = BitVec.allOnes 4 := by
  revert r; decide

/-- No two rows have the same OP (R57). -/
theorem row_eq_of_opField_pattern {r q : OpcodeRow} (hr : r ∈ opcodeRows) (hq : q ∈ opcodeRows)
    (h : opField r.pattern = opField q.pattern) : r = q := by
  have hrows : ∀ r ∈ opcodeRows, ∀ q ∈ opcodeRows, opField r.pattern = opField q.pattern → r = q := by decide
  exact hrows r hr q hq h

/-- No word matches two rows: its OP is the OP of each row it matches. -/
theorem row_eq_of_selects {r q : OpcodeRow} {w : CmdWord} (hr : r ∈ opcodeRows) (hq : q ∈ opcodeRows)
    (hrw : r.selects w = true) (hqw : q.selects w = true) : r = q := by
  have hop : opField w = opField r.pattern := eq_of_and_full (fields_of_selects hrw).1 (opField_mask hr)
  have hop' : opField w = opField q.pattern := eq_of_and_full (fields_of_selects hqw).1 (opField_mask hq)
  exact row_eq_of_opField_pattern hr hq (hop.symm.trans hop')

/-- Settles O2: a word that matches a row is the word of a command (`exists_decode_of_legalWord`), whose own row it
matches too, and no word matches two rows. -/
theorem decodeFollowsMaskAndMatch : Obligations.DecodeFollowsMaskAndMatch := by
  unfold Obligations.DecodeFollowsMaskAndMatch
  intro w i
  rw [← selects_iff]
  constructor
  · intro hsel
    obtain ⟨j, hj⟩ := exists_decode_of_legalWord (List.any_eq_true.mpr ⟨i.row, row_mem_opcodeRows i, hsel⟩)
    have hsel' : j.row.selects w = true := encode_of_decode hj ▸ row_selects_encode j
    exact ⟨j, hj, row_eq_of_selects (row_mem_opcodeRows j) (row_mem_opcodeRows i) hsel' hsel⟩
  · rintro ⟨j, hj, hrow⟩
    rw [← hrow, encode_of_decode hj]
    exact row_selects_encode j

/-! Illegal words -/

/-- The cases (a) to (d) of R59 over the fields of the word. -/
theorem decode_illegal_iff_fields {w : CmdWord} : (∃ why, decode w = .illegal why) ↔
    (opField w = 0 ∨ 5 ≤ (opField w).toNat) ∨ rsvField w ≠ 0 ∨
    ((opField w = 1 ∨ opField w = 3) ∧ argField w ≠ 0) ∨ (opField w = 4 ∧ regHighField w ≠ 0) := by
  rcases decode_cases w with
    ⟨hr, e⟩ | ⟨hr, ho, ha, e⟩ | ⟨_, ho, ha, e⟩ | ⟨hr, ho, e⟩ | ⟨hr, ho, ha, e⟩ | ⟨_, ho, ha, e⟩ | ⟨hr, ho, ha, e⟩ |
    ⟨_, ho, ha, e⟩ | ⟨_, ho, e⟩
  · exact iff_of_true ⟨_, e⟩ (.inr (.inl hr))
  · simp [e, hr, ho, ha]
  · exact iff_of_true ⟨_, e⟩ (.inr (.inr (.inl ⟨.inl ho, ha⟩)))
  · simp [e, hr, ho]
  · simp [e, hr, ho, ha]
  · exact iff_of_true ⟨_, e⟩ (.inr (.inr (.inl ⟨.inr ho, ha⟩)))
  · simp [e, hr, ho, ha]
  · exact iff_of_true ⟨_, e⟩ (.inr (.inr (.inr ⟨ho, ha⟩)))
  · exact iff_of_true ⟨_, e⟩ (.inl ho)

/-- Settles O3: the cases over the fields, read as numbers, and the step of an illegal word. -/
theorem illegalWordsAreTheFourCasesAndOnlySetErr : Obligations.IllegalWordsAreTheFourCasesAndOnlySetErr := by
  unfold Obligations.IllegalWordsAreTheFourCasesAndOnlySetErr
  refine ⟨fun w => ?_, fun s w rest why hin hd => ?_⟩
  · rw [decode_illegal_iff_fields]
    simp [← BitVec.toNat_inj, opField_toNat, rsvField_toNat, argField_toNat, regHighField_toNat]
  · rw [step_command hin, runCommand_illegal hd, raise_eq]
    rfl

/-- Settles O4: the words of the four commands, and one word for each case of R59. -/
theorem wordsOfTheOpcodeMapDecode : Obligations.WordsOfTheOpcodeMapDecode := by
  unfold Obligations.WordsOfTheOpcodeMapDecode
  exact ⟨decode_encode .init, decode_encode (.updb 0x61), decode_encode .final, decode_encode (.rdr .status),
    by decide, by decide, by decide, by decide⟩

/-! The step of a decoded word -/

/-- A table word that is a command fits in its bits and decodes to that command. -/
theorem decodeTableWord_eq_some {nbits w : Nat} {i : Instr} (h : decodeTableWord nbits w = some i) :
    w < 2 ^ nbits ∧ decode (BitVec.ofNat 16 w) = .instr i := by
  unfold decodeTableWord at h
  split at h
  case isFalse => cases h
  case isTrue hw =>
    cases hd : decode (BitVec.ofNat 16 w) with
    | illegal why => simp [hd] at h
    | instr j => exact ⟨hw.2, by simpa [hd] using h⟩

/-- Settles O5: the host's word and the table's word are the same event (log 1). -/
theorem stepRunsTheDecodedCommand : Obligations.StepRunsTheDecodedCommand := by
  unfold Obligations.StepRunsTheDecodedCommand
  refine ⟨fun s w rest i hin hd => ?_, fun s w i h => ?_⟩
  · rw [step_command hin, runCommand_instr hd]
  · obtain ⟨hw, hd⟩ := decodeTableWord_eq_some h
    have hin : (s.withFetchWord 16 w).inbox = .command (BitVec.ofNat 16 w) :: s.inbox := by
      rw [State.withFetchWord, Nat.mod_eq_of_lt hw]
      rfl
    exact (step_command hin).trans (runCommand_instr hd s)

end Sys2Proof.Machine
end

section
/-! SUPPORT. The statement about responses (R56): one response per command, its word, and what it carries. -/

namespace Sys2Proof.Machine

/-! The response word -/

theorem Response.word_toNat (r : Response) : r.word.toNat = r.code.bits.toNat * 2 ^ 32 + r.data.toNat :=
  append_toNat r.code.bits r.data

/-- Bits 33:32 of a response word are its code. -/
theorem Response.word_div (r : Response) : r.word.toNat / 2 ^ 32 = r.code.bits.toNat := by
  have := r.data.isLt
  rw [Response.word_toNat]
  omega

/-- Bits 31:0 of a response word are its data. -/
theorem Response.word_mod (r : Response) : r.word.toNat % 2 ^ 32 = r.data.toNat := by
  have := r.data.isLt
  rw [Response.word_toNat]
  omega

/-- The codes that are produced (R56, U8). -/
theorem Code.bits_toNat_lt (c : Code) : c.bits.toNat < 3 := by cases c <;> decide

theorem Code.bits_toNat_eq_zero_iff (c : Code) : c.bits.toNat = 0 ↔ c = .ok := by cases c <;> decide

theorem Code.bits_toNat_eq_one_iff (c : Code) : c.bits.toNat = 1 ↔ c = .estate := by cases c <;> decide

/-- One more response is the response transaction of the step (R62). -/
theorem outPorts_rsp {s t : State} {r : Response} (h : t.responses = s.responses ++ [r]) :
    (outPorts s t).rsp = some r.word := by
  simp [outPorts, h]

/-! The response of each rule -/

/-- A command's rule takes the event and adds one response: (OK, the register) for an RDR, DATA 0 for another word. -/
theorem Transition.response {s t : State} {w : CmdWord} {rest : List HostEvent}
    (h : Transition s rest (.command w) t) :
    ∃ r, t.inbox = rest ∧ t.responses = s.responses ++ [r] ∧
      ((∃ reg, w = encode (.rdr reg) ∧ r = ⟨.ok, s.regValue reg⟩) ∨
        ((∀ reg, w ≠ encode (.rdr reg)) ∧ r.data = 0)) := by
  cases h with
  | init => exact ⟨_, rfl, rfl, .inr (by simp)⟩
  | append d => exact ⟨_, rfl, rfl, .inr (by simp)⟩
  | drain d => exact ⟨_, rfl, rfl, .inr (by simp)⟩
  | final => exact ⟨_, rfl, rfl, .inr (by simp)⟩
  | estate i hi => exact ⟨_, rfl, rfl, .inr (by obtain ⟨d, rfl⟩ | rfl := hi <;> simp)⟩
  | rdr reg => exact ⟨_, rfl, rfl, .inl ⟨reg, rfl, rfl⟩⟩
  | illegal _ hw => exact ⟨_, rfl, rfl, .inr ⟨fun reg => hw (.rdr reg), rfl⟩⟩

/-- Settles O23: `Transition.response`, with the response word read as a number. -/
theorem everyCommandGetsOneResponse : Obligations.EveryCommandGetsOneResponse := by
  unfold Obligations.EveryCommandGetsOneResponse
  intro s w rest hin
  obtain ⟨t, htr⟩ := exists_transition s (.command w) rest
  obtain ⟨r, hinbox, hresp, hcase⟩ := htr.response
  refine ⟨t, r, htr.step_eq hin, hinbox, hresp, outPorts_rsp hresp, ?_, r.word_mod, ?_, ?_, ?_⟩
  · rw [r.word_div]
    exact r.code.bits_toNat_lt
  · rw [r.word_div]
    exact r.code.bits_toNat_eq_zero_iff
  · rw [r.word_div]
    exact r.code.bits_toNat_eq_one_iff
  · obtain ⟨reg, rfl, rfl⟩ | ⟨hw, hdata⟩ := hcase
    · simp
    · simp [hw, hdata]

end Sys2Proof.Machine
end

section
/-! SUPPORT. The statements about the assembler (R63, R64): each line's words as numbers. -/

namespace Sys2Proof.Machine

theorem assemble_of_wellFormed (l : AsmLine) (h : AsmLine.wellFormed l = true) :
    assemble l = some (AsmLine.words l) := if_pos h

/-! The words of UPDB and RDR with a numeric operand -/

theorem encode_updb_ofNat {n : Nat} (h : n < 256) :
    encode (.updb (BitVec.ofNat 8 n)) = BitVec.ofNat 16 (0x2000 + n) := by
  apply BitVec.eq_of_toNat_eq
  simp only [encode, append_toNat, BitVec.toNat_ofNat]
  omega

theorem encode_rdr_ofNat {n : Nat} (h : n < 8) :
    encode (.rdr (Reg.ofNumber (BitVec.ofNat 3 n))) = BitVec.ofNat 16 (0x4000 + n) := by
  apply BitVec.eq_of_toNat_eq
  simp only [encode, Reg.number_ofNumber, append_toNat, BitVec.toNat_ofNat]
  omega

/-- The number that a byte literal stands for: itself, or the character's ASCII code (R63). -/
def byteCode : ByteLit → Nat
  | .num n => n
  | .chr c => c.toNat

theorem byteOf_eq_ofNat (b : ByteLit) : byteOf b = BitVec.ofNat 8 (byteCode b) := by cases b <;> rfl

theorem byteCode_lt {b : ByteLit} (h : b.wellFormed = true) : byteCode b < 256 := by
  cases b with
  | num n =>
    have hn : n ≤ 255 := by simpa [ByteLit.wellFormed] using h
    exact Nat.lt_succ_of_le hn
  | chr c =>
    obtain ⟨-, hc⟩ : 0x20 ≤ c.toNat ∧ c.toNat ≤ 0x7E := by simpa [ByteLit.wellFormed] using h
    exact Nat.lt_of_le_of_lt hc (by decide)

theorem encode_updb_byteOf {b : ByteLit} (h : b.wellFormed = true) :
    encode (.updb (byteOf b)) = BitVec.ofNat 16 (0x2000 + byteCode b) := by
  rw [byteOf_eq_ofNat, encode_updb_ofNat (byteCode_lt h)]

theorem wellFormed_num {n : Nat} (h : n ≤ 255) : (ByteLit.num n).wellFormed = true := decide_eq_true h

theorem wellFormed_chr {c : Char} (h : 0x20 ≤ c.toNat) (h' : c.toNat ≤ 0x7E) : (ByteLit.chr c).wellFormed = true := by
  simp [ByteLit.wellFormed, h, h']

/-- UPDB of a well-formed byte (R63). -/
theorem assemble_updb {b : ByteLit} (h : b.wellFormed = true) :
    assemble (.updb b) = some [BitVec.ofNat 16 (0x2000 + byteCode b)] := by
  rw [assemble_of_wellFormed (.updb b) h, AsmLine.words, encode_updb_byteOf h]

/-! Legality -/

/-- Every line but `.word` assembles to words of commands (R63, R64). -/
theorem words_eq_map_encode {l : AsmLine} (h : ∀ v, l ≠ .word v) :
    ∃ is : List Instr, AsmLine.words l = is.map encode := by
  cases l with
  | init => exact ⟨[.init], rfl⟩
  | updb b => exact ⟨[.updb (byteOf b)], rfl⟩
  | final => exact ⟨[.final], rfl⟩
  | rdr r => exact ⟨[.rdr (regOf r)], rfl⟩
  | word v => exact absurd rfl (h v)
  | updateText text => exact ⟨_, rfl⟩
  | updateBytes bs => exact ⟨_, rfl⟩
  | fill b count => exact ⟨_, rfl⟩
  | rddigest => exact ⟨_, rfl⟩
  | rdlen => exact ⟨_, rfl⟩
  | sha1 text => exact ⟨_, rfl⟩

theorem legalWord_of_mem_words {l : AsmLine} (h : ∀ v, l ≠ .word v) {w : CmdWord} (hw : w ∈ AsmLine.words l) :
    legalWord w = true := by
  obtain ⟨is, his⟩ := words_eq_map_encode h
  rw [his] at hw
  obtain ⟨i, -, rfl⟩ := List.mem_map.mp hw
  exact legalWord_encode i

/-- Settles O6: one clause per row of the syntax table; the last by `legalWord_of_mem_words`. -/
theorem assemblerEmitsTheCommandWords : Obligations.AssemblerEmitsTheCommandWords := by
  unfold Obligations.AssemblerEmitsTheCommandWords
  refine ⟨by decide, fun n hn => assemble_updb (wellFormed_num hn), fun c h h' => assemble_updb (wellFormed_chr h h'),
    by decide, fun n hn => ?_, by decide, fun v hv => ?_, fun l ws hws hl w hw => ?_⟩
  · have hwf : AsmLine.wellFormed (.rdr (.num n)) = true := decide_eq_true hn
    rw [assemble_of_wellFormed _ hwf, AsmLine.words, regOf, encode_rdr_ofNat (Nat.lt_succ_of_le hn)]
  · have hwf : AsmLine.wellFormed (.word v) = true := decide_eq_true hv
    exact ⟨_, assemble_of_wellFormed _ hwf, (BitVec.toNat_ofNat v 16).trans (Nat.mod_eq_of_lt hv)⟩
  · obtain ⟨-, rfl⟩ : AsmLine.wellFormed l = true ∧ AsmLine.words l = ws := by simpa [assemble] using hws
    exact legalWord_of_mem_words hl hw

/-! The pseudo-instructions -/

/-- One UPDB word per byte, in order (R64, R99). -/
theorem map_encode_updateInstrs {α : Type} {code : α → Nat} {xs : List α} (h : ∀ x ∈ xs, code x < 256) :
    (updateInstrs (xs.map fun x => BitVec.ofNat 8 (code x))).map encode =
      xs.map fun x => BitVec.ofNat 16 (0x2000 + code x) := by
  rw [updateInstrs, List.map_map, List.map_map]
  exact List.map_congr_left fun x hx => encode_updb_ofNat (h x hx)

theorem updateWords_textBytes {text : List Char} (h : asciiText text = true) :
    (updateInstrs (textBytes text)).map encode = text.map fun c => BitVec.ofNat 16 (0x2000 + c.toNat) := by
  have hascii : ∀ c ∈ text, c.toNat < 128 := by simpa [asciiText] using h
  exact map_encode_updateInstrs fun c hc => Nat.lt_trans (hascii c hc) (by decide)

theorem updateWords_byteOf {bs : List ByteLit} (h : bs.all ByteLit.wellFormed = true) :
    (updateInstrs (bs.map byteOf)).map encode = bs.map fun b => BitVec.ofNat 16 (0x2000 + byteCode b) := by
  rw [funext byteOf_eq_ofNat]
  exact map_encode_updateInstrs fun b hb => byteCode_lt (List.all_eq_true.mp h b hb)

theorem rdDigestWords : rdDigestInstrs.map encode = [0x4000, 0x4001, 0x4002, 0x4003, 0x4004] := by decide

theorem sha1Words (M : List Byte) : (sha1Instrs M).map encode =
    0x1000 :: ((updateInstrs M).map encode ++ [0x3000, 0x4000, 0x4001, 0x4002, 0x4003, 0x4004]) := by
  rw [sha1Instrs, List.map_cons, List.map_append, List.map_cons, rdDigestWords]
  rfl

/-- FILL of a well-formed byte (R64). -/
theorem assemble_fill {b : ByteLit} (count : Nat) (h : b.wellFormed = true) :
    assemble (.fill b count) = some (List.replicate count (BitVec.ofNat 16 (0x2000 + byteCode b))) := by
  rw [assemble_of_wellFormed (.fill b count) h, AsmLine.words, updateInstrs, List.map_replicate, List.map_replicate,
    encode_updb_byteOf h]

/-- Settles O41: the words of each expansion, UPDATE's and SHA1's by `map_encode_updateInstrs`. -/
theorem pseudoInstructionsExpandToTheirCommands : Obligations.PseudoInstructionsExpandToTheirCommands := by
  unfold Obligations.PseudoInstructionsExpandToTheirCommands
  refine ⟨fun text htext => ⟨?_, ?_⟩, fun bs hbs => ?_, fun n count hn => assemble_fill count (wellFormed_num hn),
    fun c count h h' => assemble_fill count (wellFormed_chr h h'), by decide, by decide⟩
  · rw [assemble_of_wellFormed (.updateText text) htext, AsmLine.words, updateWords_textBytes htext]
  · rw [assemble_of_wellFormed (.sha1 text) htext, AsmLine.words, sha1Words, updateWords_textBytes htext]
  · rw [assemble_of_wellFormed (.updateBytes bs) hbs, AsmLine.words, updateWords_byteOf hbs]
    rfl

end Sys2Proof.Machine
end

section
/-! SUPPORT. The statements about the engine's parts: the rotation (R72), one round (R76 to R82) and the schedule
(R74, R75). -/

namespace Sys2Proof.Machine

/-! The rotation -/

/-- The rotation of R72 is the library's. -/
theorem rotl_eq_rotateLeft (n : Word) (b : Nat) (hb : 0 < b ∧ b < 32) : rotl n b hb = n.rotateLeft b := by
  rw [BitVec.rotateLeft_def, Nat.mod_eq_of_lt hb.2, rotl]

/-- Settles O7: the bits and the number of the library's rotation (`rotl_eq_rotateLeft`). -/
theorem rotlMovesEachBit : Obligations.RotlMovesEachBit := by
  unfold Obligations.RotlMovesEachBit
  intro n b hb
  have hmod : b % 32 = b := Nat.mod_eq_of_lt hb.2
  rw [rotl_eq_rotateLeft]
  refine ⟨fun i hi => ?_, ?_⟩
  · rw [BitVec.getLsbD_rotateLeft, hmod]
    by_cases hib : i < b
    · rw [show (i + 32 - b) % 32 = 32 - b + i by omega]
      simp [hib]
    · rw [show (i + 32 - b) % 32 = i - b by omega]
      simp [hib, hi]
  · rw [BitVec.toNat_rotateLeft, hmod, Nat.shiftLeft_eq, Nat.shiftRight_eq_div_pow]

/-! One round -/

/-- Settles O8: bit by bit. -/
theorem firstRoundFunctionHasTheStandardForm : Obligations.FirstRoundFunctionHasTheStandardForm := by
  unfold Obligations.FirstRoundFunctionHasTheStandardForm
  intro x y z
  have hbit : ∀ p q r : Bool, (r ^^ (p && (q ^^ r))) = ((p && q) || (!p && r)) := by decide
  apply BitVec.eq_of_getElem_eq
  intro i hi
  simpa [fCh] using hbit x[i] y[i] z[i]

/-- K_t is entry t div 20 of the table of R80. -/
theorem roundConst_toNat {t : Nat} (ht : t < 80) :
    (roundConst t).toNat = [0x5A827999, 0x6ED9EBA1, 0x8F1BBCDC, 0xCA62C1D6].getD (t / 20) 0 := by
  revert t
  decide

/-- f_t by the index ranges of R76 to R79: the parity function serves two of them. -/
theorem roundFn_eq (t : Nat) (b c d : Word) :
    roundFn t b c d = if t < 20 then fCh b c d else if 40 ≤ t ∧ t < 60 then fMaj b c d else fPar b c d := by
  unfold roundFn
  by_cases h40 : t < 40
  · rw [if_pos h40, if_neg fun h : 40 ≤ t ∧ t < 60 => absurd h40 (Nat.not_lt.mpr h.1)]
  · have hmaj : (40 ≤ t ∧ t < 60) ↔ t < 60 := and_iff_right (Nat.le_of_not_lt h40)
    simp only [if_neg h40, hmaj]

/-- The new a is a sum of integers mod 2^32 (R71, R82). -/
theorem oneRound_a_toNat (t : Nat) (w : Word) (v : Vars) :
    (oneRound t w v).a.toNat = ((rotl v.a 5).toNat + (roundFn t v.b v.c v.d).toNat + v.e.toNat +
      (roundConst t).toNat + w.toNat) % 2 ^ 32 := by
  simp only [oneRound, add32, BitVec.toNat_add, Nat.mod_add_mod]

/-- Settles O10: `oneRound_a_toNat` with f_t and K_t by their index ranges. -/
theorem roundUpdatesTheWorkingVariables : Obligations.RoundUpdatesTheWorkingVariables := by
  unfold Obligations.RoundUpdatesTheWorkingVariables
  intro t w v ht
  refine ⟨?_, rfl, rfl, rfl, rfl⟩
  rw [oneRound_a_toNat, roundConst_toNat ht, roundFn_eq]
  rfl

/-! The schedule -/

/-- The recurrence reads the words below its index only (R75). -/
theorem scheduleWord_congr {w w' : List Word} {i : Nat} (hi : 16 ≤ i)
    (h : ∀ j, j < i → wordAt w j = wordAt w' j) :
    scheduleWord w i = scheduleWord w' i := by
  rw [scheduleWord, scheduleWord, h (i - 3) (by omega), h (i - 8) (by omega), h (i - 14) (by omega),
    h (i - 16) (by omega)]

/-- Each word that expansion adds follows the recurrence over the whole result (R75). -/
theorem wordAt_expand_right (k : Nat) (w : List Word) {i : Nat} (hw : 16 ≤ w.length) (hi : w.length ≤ i)
    (hik : i < w.length + k) : wordAt (expand k w) i = scheduleWord (expand k w) i := by
  induction k generalizing w with
  | zero => omega
  | succ k ih =>
    have hlen : (w ++ [scheduleWord w w.length]).length = w.length + 1 := List.length_append
    rw [expand]
    obtain rfl | hlt := Nat.eq_or_lt_of_le hi
    · rw [wordAt_expand_left _ _ (by omega), wordAt_append_length]
      refine scheduleWord_congr hw fun j hj => ?_
      rw [wordAt_expand_left _ _ (by omega), wordAt_append_left _ _ hj]
    · exact ih _ (by omega) (by omega) (by omega)

/-- The first sixteen words are the block's (R74). -/
theorem wordAt_schedule_load (B : List Byte) {j : Nat} (hj : j < 16) : wordAt (schedule B) j = wordBE B j := by
  rw [schedule, wordAt_expand_left _ _ (by simpa using hj), wordAt_loadWords B hj]

/-- The later words follow the recurrence (R75). -/
theorem wordAt_schedule_recurrence (B : List Byte) {i : Nat} (hi : 16 ≤ i) (hi' : i < 80) :
    wordAt (schedule B) i = scheduleWord (schedule B) i :=
  wordAt_expand_right 64 (loadWords B) (by simp) (by simpa using hi) (by simpa using hi')

/-- Settles O9: the loaded words by `wordAt_schedule_load`, the rest by `wordAt_schedule_recurrence`. -/
theorem scheduleFollowsTheRecurrence : Obligations.ScheduleFollowsTheRecurrence := by
  unfold Obligations.ScheduleFollowsTheRecurrence
  intro B _
  refine ⟨schedule_length B, fun j hj => ?_, fun i hi hi' => wordAt_schedule_recurrence B hi hi'⟩
  rw [wordAt_schedule_load B hj, wordBE_toNat]

end Sys2Proof.Machine
end

section
/-! SUPPORT. The statements about the whole engine: the eighty rounds and the add-back (R83, R84), the sixteen-word
window (R88) and the packed ports (R90). -/

namespace Sys2Proof.Machine

/-! The eighty rounds -/

/-- `compress` as a fold over the eighty round indices (R84). -/
theorem compress_eq_addBack_foldl (S : HashState) (B : List Byte) :
    compress S B = addBack S
      ((List.range 80).foldl (fun v t => oneRound t (wordAt (schedule B) t) v) (initVars S)) := by
  unfold compress
  rw [rounds_eq_foldl (schedule B) 0 (schedule B) (initVars S) fun i _ => congrArg _ (Nat.zero_add i).symm,
    schedule_length, List.range_eq_range']

/-- Settles O11: `compress_eq_addBack_foldl`, each sum of the add-back as a number. -/
theorem compressRunsEightyRoundsAndAddsBack : Obligations.CompressRunsEightyRoundsAndAddsBack := by
  unfold Obligations.CompressRunsEightyRoundsAndAddsBack
  intro S B _
  rw [compress_eq_addBack_foldl]
  exact ⟨_, rfl, BitVec.toNat_add .., BitVec.toNat_add .., BitVec.toNat_add .., BitVec.toNat_add ..,
    BitVec.toNat_add ..⟩

/-! The sixteen-word window -/

/-- The window `W` holds the sixteen schedule words of `w` below index `n`, w[i] at position i mod 16 (R88). -/
structure WindowOf (w : List Word) (n : Nat) (W : List Word) : Prop where
  length : W.length = 16
  word : ∀ i, i < n → n ≤ i + 16 → wordAt W (i % 16) = wordAt w i

theorem wordAt_set (W : List Word) {s : Nat} (x : Word) (hs : s < W.length) (i : Nat) :
    wordAt (W.set s x) i = if s = i then x else wordAt W i := by
  simp only [wordAt, List.getD_eq_getElem?_getD, List.getElem?_set]
  split_ifs <;> rfl

theorem windowOf_loadWords (B : List Byte) : WindowOf (schedule B) 16 (loadWords B) where
  length := loadWords_length B
  word i hi _ := by rw [Nat.mod_eq_of_lt hi, wordAt_loadWords B hi, wordAt_schedule_load B hi]

/-- The four positions that the update reads hold the four words of the recurrence (R88). -/
theorem WindowOf.update_word {w W : List Word} {t : Nat} (h : WindowOf w t W) (ht : 16 ≤ t) :
    windowUpdate t W = W.set (t % 16) (scheduleWord w t) := by
  have hread (d : Nat) (hd : 0 < d ∧ d ≤ 16) : wordAt W ((t - d) % 16) = wordAt w (t - d) :=
    h.word (t - d) (by omega) (by omega)
  rw [windowUpdate, scheduleWord, ← hread 3 (by decide), ← hread 8 (by decide), ← hread 14 (by decide),
    ← hread 16 (by decide), show (t - 3) % 16 = (t % 16 + 13) % 16 by omega,
    show (t - 8) % 16 = (t % 16 + 8) % 16 by omega, show (t - 14) % 16 = (t % 16 + 2) % 16 by omega,
    show (t - 16) % 16 = t % 16 by omega]

/-- The update moves the window on by one index (R88). -/
theorem WindowOf.update {w W : List Word} {t : Nat} (h : WindowOf w t W) (ht : 16 ≤ t)
    (hrec : wordAt w t = scheduleWord w t) : WindowOf w (t + 1) (windowUpdate t W) where
  length := by rw [h.update_word ht, List.length_set, h.length]
  word i hi hi' := by
    have hpos : t % 16 < W.length := by rw [h.length]; exact Nat.mod_lt t (by decide)
    rw [h.update_word ht, wordAt_set W _ hpos]
    obtain rfl | hlt := Nat.eq_or_lt_of_le (Nat.lt_succ_iff.mp hi)
    · rw [if_pos rfl, hrec]
    · rw [if_neg (by omega), h.word i hlt (by omega)]

/-- The window that round `t` reads: the loaded words in rounds 0 to 15, then moved on by one index (R88). -/
theorem WindowOf.windowAt {w W : List Word} {t : Nat} (h : WindowOf w (max 16 t) W)
    (hrec : 16 ≤ t → wordAt w t = scheduleWord w t) : WindowOf w (max 16 (t + 1)) (windowAt t W) := by
  unfold Machine.windowAt
  split_ifs with ht
  · rw [Nat.max_eq_left (Nat.le_of_lt ht)] at h
    rwa [Nat.max_eq_left ht]
  · rw [Nat.max_eq_right (Nat.le_of_not_lt ht)] at h
    rw [Nat.max_eq_right (by omega)]
    exact h.update (Nat.le_of_not_lt ht) (hrec (Nat.le_of_not_lt ht))

/-- The rounds over a window are a fold over their indices (R88). -/
theorem windowRounds_eq_foldl {w : List Word} (k t : Nat) (W : List Word) (v : Vars) (h : WindowOf w (max 16 t) W)
    (hrec : ∀ i, 16 ≤ i → i < t + k → wordAt w i = scheduleWord w i) :
    windowRounds k t W v = (List.range' t k).foldl (fun v t => oneRound t (wordAt w t) v) v := by
  induction k generalizing t W v with
  | zero => rfl
  | succ k ih =>
    have hW : WindowOf w (max 16 (t + 1)) (windowAt t W) := h.windowAt fun ht => hrec t ht (by omega)
    rw [windowRounds, hW.word t (by omega) (by omega), ih (t + 1) _ _ hW fun i hi hi' => hrec i hi (by omega),
      List.range'_succ, List.foldl_cons]

/-- Settles O12: both engines fold the rounds over the same words (`windowRounds_eq_foldl`). -/
theorem windowedEngineEqualsCompress : Obligations.WindowedEngineEqualsCompress := by
  unfold Obligations.WindowedEngineEqualsCompress
  intro S B _
  rw [compressWindow, compress_eq_addBack_foldl, List.range_eq_range',
    windowRounds_eq_foldl 80 0 _ _ (windowOf_loadWords B) fun i hi hi' => wordAt_schedule_recurrence B hi (by omega)]

/-! The packed ports -/

theorem extractLsb'_append_lowWord {n : Nat} (x : BitVec n) (y : Word) : (x ++ y).extractLsb' 0 32 = y := by
  rw [BitVec.extractLsb'_append_eq_of_add_le (Nat.le_refl 32), BitVec.extractLsb'_eq_self]

theorem extractLsb'_append_aboveWord {n : Nat} (x : BitVec n) (y : Word) (p : Nat) :
    (x ++ y).extractLsb' (p + 32) 32 = x.extractLsb' p 32 := by
  rw [BitVec.extractLsb'_append_eq_of_le (Nat.le_add_left 32 p), Nat.add_sub_cancel]

/-- The five words of the packed state, s0 the most significant (R90). -/
theorem unpackState_packState (S : HashState) : unpackState (packState S) = S := by
  obtain ⟨s0, s1, s2, s3, s4⟩ := S
  have h0 : (s0 ++ s1 ++ s2 ++ s3 ++ s4).extractLsb' 128 32 = s0 := by
    rw [extractLsb'_append_aboveWord _ _ 96, extractLsb'_append_aboveWord _ _ 64,
      extractLsb'_append_aboveWord _ _ 32, extractLsb'_append_aboveWord _ _ 0, BitVec.extractLsb'_eq_self]
  have h1 : (s0 ++ s1 ++ s2 ++ s3 ++ s4).extractLsb' 96 32 = s1 := by
    rw [extractLsb'_append_aboveWord _ _ 64, extractLsb'_append_aboveWord _ _ 32,
      extractLsb'_append_aboveWord _ _ 0, extractLsb'_append_lowWord]
  have h2 : (s0 ++ s1 ++ s2 ++ s3 ++ s4).extractLsb' 64 32 = s2 := by
    rw [extractLsb'_append_aboveWord _ _ 32, extractLsb'_append_aboveWord _ _ 0, extractLsb'_append_lowWord]
  have h3 : (s0 ++ s1 ++ s2 ++ s3 ++ s4).extractLsb' 32 32 = s3 := by
    rw [extractLsb'_append_aboveWord _ _ 0, extractLsb'_append_lowWord]
  have h4 : (s0 ++ s1 ++ s2 ++ s3 ++ s4).extractLsb' 0 32 = s4 := extractLsb'_append_lowWord _ _
  simpa only [unpackState, packState, HashState.mk.injEq] using ⟨h0, h1, h2, h3, h4⟩

/-- One more byte moves the packed bytes up and becomes the least significant one (R90). -/
theorem packBlock_append (B : List Byte) (b : Byte) :
    packBlock (B ++ [b]) = packBlock B <<< 8 ||| b.setWidth 512 := by
  rw [packBlock, List.foldl_append]
  rfl

theorem extractLsb'_zero_of_shift_byte (x : BitVec 512) (b : Byte) :
    (x <<< 8 ||| b.setWidth 512).extractLsb' 0 8 = b := by
  apply BitVec.eq_of_getLsbD_eq
  intro i hi
  simp [hi, show i < 512 by omega]

theorem extractLsb'_succ_of_shift_byte (x : BitVec 512) (b : Byte) {p : Nat} (hp : p + 16 ≤ 512) :
    (x <<< 8 ||| b.setWidth 512).extractLsb' (p + 8) 8 = x.extractLsb' p 8 := by
  apply BitVec.eq_of_getLsbD_eq
  intro i hi
  have hhigh : b.getLsbD (p + 8 + i) = false := BitVec.getLsbD_of_ge b _ (by omega)
  have hshift : (x <<< 8).getLsbD (p + 8 + i) = x.getLsbD (p + i) := by
    rw [Nat.add_right_comm, BitVec.getLsbD_shiftLeft, Nat.add_sub_cancel]
    simp [show p + i + 8 < 512 by omega]
  rw [BitVec.getLsbD_extractLsb', BitVec.getLsbD_extractLsb', BitVec.getLsbD_or, hshift, BitVec.getLsbD_setWidth, hhigh,
    Bool.and_false, Bool.or_false]

/-- Byte i of a packed sequence, byte 0 the most significant (R90). -/
theorem extractLsb'_packBlock (B : List Byte) {i : Nat} (hi : i < B.length) (hB : B.length ≤ 64) :
    (packBlock B).extractLsb' (8 * (B.length - 1 - i)) 8 = byteAt B i := by
  induction B using List.reverseRecOn with
  | nil => exact absurd hi (Nat.not_lt_zero i)
  | append_singleton B b ih =>
    simp only [List.length_append, List.length_singleton] at hi hB ⊢
    rw [packBlock_append]
    obtain rfl | hlt := Nat.eq_or_lt_of_le (Nat.lt_succ_iff.mp hi)
    · rw [show 8 * (B.length + 1 - 1 - B.length) = 0 by omega, extractLsb'_zero_of_shift_byte]
      simp [byteAt]
    · rw [show 8 * (B.length + 1 - 1 - i) = 8 * (B.length - 1 - i) + 8 by omega,
        extractLsb'_succ_of_shift_byte _ _ (by omega), ih hlt (by omega)]
      simp [byteAt, List.getElem?_append, hlt]

theorem unpackBlock_packBlock {B : List Byte} (hB : B.length = 64) : unpackBlock (packBlock B) = B := by
  apply List.ext_getElem
  · simp [unpackBlock, hB]
  · intro i _ hi
    have hbyte := extractLsb'_packBlock B hi (Nat.le_of_eq hB)
    rw [hB] at hbyte
    simpa [unpackBlock, byteAt, hi] using hbyte

/-- Word j of a packed block (R90). -/
theorem extractLsb'_packBlock_word {B : List Byte} (hB : B.length = 64) {j : Nat} (hj : j < 16) :
    (packBlock B).extractLsb' (480 - 32 * j) 32 = wordBE B j := by
  have hbyte (i p : Nat) (hi : i < 64) (hp : p = 8 * (63 - i)) : (packBlock B).extractLsb' p 8 = byteAt B i := by
    have h := extractLsb'_packBlock B (hB ▸ hi) (Nat.le_of_eq hB)
    rwa [hB, ← hp] at h
  rw [← extractLsb'_four_bytes, hbyte (4 * j) _ (by omega) (by omega), hbyte (4 * j + 1) _ (by omega) (by omega),
    hbyte (4 * j + 2) _ (by omega) (by omega), hbyte (4 * j + 3) _ (by omega) (by omega), wordBE]

/-- Settles O13: unpacking inverts packing, and the ports' words are those of the packed values. -/
theorem packedEngineComputesCompress : Obligations.PackedEngineComputesCompress := by
  unfold Obligations.PackedEngineComputesCompress
  intro S B hB
  have hS : unpackState (packState S) = S := unpackState_packState S
  refine ⟨?_, fun j hj => extractLsb'_packBlock_word hB hj, congrArg HashState.h0 hS, congrArg HashState.h1 hS,
    congrArg HashState.h2 hS, congrArg HashState.h3 hS, congrArg HashState.h4 hS⟩
  rw [engine, hS, unpackBlock_packBlock hB]

end Sys2Proof.Machine
end

section
/-! SUPPORT. The statements about one hasher command: INIT (R96), UPDB (R97), FINAL (R101), and the tail that FINAL
compresses (R100). -/

namespace Sys2Proof.Machine

/-! INIT and UPDB -/

/-- Settles O15: INIT is `State.initialise` and its response. -/
theorem initCompletesInEveryState : Obligations.InitCompletesInEveryState := by
  unfold Obligations.InitCompletesInEveryState
  intro s
  exact ⟨_, execInit_eq s, respond_atReset (initialise_atReset s) .ok 0, rfl, rfl⟩

/-- Settles O16: the phase decides between ESTATE and success, BUFLEN = 63 between the drain and the append. -/
theorem updbAppendsAByteAndDrainsAFullBlock : Obligations.UpdbAppendsAByteAndDrainsAFullBlock := by
  unfold Obligations.UpdbAppendsAByteAndDrainsAFullBlock
  intro d s
  refine ⟨fun hfin => execUpdb_finalized d hfin, fun hfin => ?_⟩
  have hlen : (s.len + 8).toNat = (s.len.toNat + 8) % 2 ^ 64 := BitVec.toNat_add s.len 8
  by_cases hfull : s.buflen.toNat + 1 = 64
  · have h63 : s.buflen.toNat = 63 := by omega
    refine ⟨_, execUpdb_drains d hfin hfull, hlen, hfin, rfl, rfl, rfl, fun hroom => by omega, fun _ => ?_⟩
    rw [h63, memRead_drained]
    exact ⟨rfl, rfl, fun _ => rfl⟩
  · refine ⟨_, execUpdb_appends d hfin hfull, hlen, hfin, rfl, rfl, rfl, fun _ => ?_, fun h => absurd h hfull⟩
    exact ⟨rfl, buflen_succ s.buflen hfull, Memory.read_write_same .., fun _ ha => Memory.read_write_other _ d ha⟩

/-! The padded tail -/

/-- The one-block tail (R100). -/
theorem pad_eq_one_block (m : Memory) {n : Nat} (L : LenWord) (h : n ≤ 55) :
    pad m n L = memRead m 0 n ++ [0x80#8] ++ zeros (55 - n) ++ be64 L := by
  rw [pad, show padZeros n = 55 - n by rw [padZeros]; omega]

theorem zeros_add (a b : Nat) : zeros (a + b) = zeros a ++ zeros b := List.replicate_add ..

/-- The two-block tail: its zero bytes fill the first block and the second up to the length field (R100). -/
theorem pad_eq_two_blocks (m : Memory) {n : Nat} (L : LenWord) (h : 56 ≤ n) (hn : n < 64) :
    pad m n L = (memRead m 0 n ++ [0x80#8] ++ zeros (63 - n)) ++ (zeros 56 ++ be64 L) := by
  rw [pad, show padZeros n = 63 - n + 56 by rw [padZeros]; omega, zeros_add]
  simp only [List.append_assoc]

/-- The compressions of a tail given as its two blocks (R101). -/
theorem compressTail_append (S : HashState) {A B : List Byte} (hA : A.length = 64) (hB : B.length = 64) :
    compressTail S (A ++ B) = compress (compress S A) B := by
  rw [compressTail_two S (by rw [List.length_append, hA, hB]), List.take_left' hA, List.drop_left' hA]

/-- Settles O17: the tail's compressions, by `pad_eq_one_block` and `pad_eq_two_blocks`. -/
theorem finalCompressesThePaddedTail : Obligations.FinalCompressesThePaddedTail := by
  unfold Obligations.FinalCompressesThePaddedTail
  intro s
  refine ⟨fun hfin => execFinal_finalized hfin, fun hfin => ?_⟩
  have hlt : s.buflen.toNat < 64 := s.buflen.isLt
  refine ⟨_, execFinal_active hfin, fun hone => ?_, fun htwo => ?_, rfl, rfl, rfl, rfl, fun _ => rfl, rfl, rfl⟩
  · rw [← pad_eq_one_block s.buf s.len hone]
    exact compressTail_one s.h (by rw [pad_length _ _ hlt, if_pos hone])
  · rw [pad_eq_two_blocks s.buf s.len htwo hlt]
    refine compressTail_append s.h ?_ (by simp)
    simp only [List.length_append, memRead_length, List.length_singleton, zeros_length]
    omega

/-- Byte j of the length field (R8, R100). -/
theorem be64_getElem? (L : LenWord) {j : Nat} (hj : j < 8) :
    (be64 L)[j]? = some (BitVec.ofNat 8 (L.toNat / 2 ^ (8 * (7 - j)))) := by
  have hbytes : be64 L = (List.range 8).map fun j => L.extractLsb' (8 * (7 - j)) 8 := rfl
  rw [hbytes, List.getElem?_map, List.getElem?_range hj, Option.map_some, ← Nat.shiftRight_eq_div_pow]
  rfl

section
variable (m : Memory) (n : Nat) (L : LenWord)

theorem pad_length_eq_add : (pad m n L).length = n + 1 + padZeros n + 8 := by
  simp only [pad, List.length_append, memRead_length, List.length_singleton, zeros_length, be64_length]

/-- The tail starts with the buffered bytes (R100). -/
theorem pad_getElem?_data {i : Nat} (hi : i < n) : (pad m n L)[i]? = some (m.slot i) := by
  rw [pad, List.append_assoc, List.append_assoc, List.getElem?_append_left (by rwa [memRead_length]),
    memRead_getElem? m 0 n hi, Nat.zero_add]

/-- 0x80 follows the data (R100). -/
theorem pad_getElem?_marker : (pad m n L)[n]? = some 0x80#8 := by
  rw [pad, List.append_assoc, List.append_assoc, List.getElem?_append_right (by rw [memRead_length]), memRead_length,
    Nat.sub_self]
  rfl

/-- Zero bytes stand between 0x80 and the length field (R100). -/
theorem pad_getElem?_zero {i : Nat} (hi : n < i) (hi' : i + 8 < (pad m n L).length) : (pad m n L)[i]? = some 0#8 := by
  rw [pad_length_eq_add] at hi'
  have hfront : (memRead m 0 n ++ [0x80#8]).length = n + 1 := by simp
  rw [pad, List.append_assoc, List.getElem?_append_right (by omega), hfront,
    List.getElem?_append_left (by rw [zeros_length]; omega), zeros, List.getElem?_replicate_of_lt (by omega)]
  rfl

/-- The length field ends the tail, most significant byte first (R100). -/
theorem pad_getElem?_length {j : Nat} (hj : j < 8) :
    (pad m n L)[(pad m n L).length - 8 + j]? = some (BitVec.ofNat 8 (L.toNat / 2 ^ (8 * (7 - j)))) := by
  obtain ⟨P, hpad⟩ : ∃ P, pad m n L = P ++ be64 L := ⟨_, rfl⟩
  rw [hpad, List.length_append, be64_length, Nat.add_sub_cancel, List.getElem?_append_right (Nat.le_add_right ..),
    Nat.add_sub_cancel_left, be64_getElem? L hj]

end

/-- Settles O18: the lengths by `pad_length`, each part of the tail by its own lemma. -/
theorem padIsOneOrTwoBlocks : Obligations.PadIsOneOrTwoBlocks := by
  unfold Obligations.PadIsOneOrTwoBlocks
  intro m n L hn
  refine ⟨fun hone => ?_, fun htwo => ?_, fun i hi => pad_getElem?_data m n L hi, pad_getElem?_marker m n L,
    fun i hi hi' => pad_getElem?_zero m n L hi hi', fun j hj => pad_getElem?_length m n L hj⟩
  · rw [pad_length m L hn, if_pos hone]
  · rw [pad_length m L hn, if_neg (by omega)]

/-- Settles O36: the zero bytes of R100 round the message with its nine further bytes up to whole blocks. -/
theorem paddedMessageHasTheStatedNumberOfBlocks : Obligations.PaddedMessageHasTheStatedNumberOfBlocks := by
  unfold Obligations.PaddedMessageHasTheStatedNumberOfBlocks
  intro M
  have hlen : (padMessage M).length = M.length + 1 + padZeros (M.length % 64) + 8 := by
    simp only [padMessage, List.length_append, List.length_singleton, zeros_length, be64_length]
  rw [hlen, padZeros, compressionCount]
  refine ⟨?_, ?_, ?_⟩ <;> omega

end Sys2Proof.Machine
end

section
/-! SUPPORT. The statements about runs of commands: a chunk of any length (R99) and one-shot hashing (R103). -/

namespace Sys2Proof.Machine

/-! Runs -/

/-- A run of any machine starts with its step. -/
theorem coreRun_succ (C : Host.Core) {s t : C.State} (h : C.step s = .next t) (k : Nat) :
    C.run (k + 1) s = C.run k t := by
  rw [Host.Core.run, h]

theorem run_succ_of_step {s t : State} (h : step s = .next t) (k : Nat) :
    Sys2Proof.core.run (k + 1) s = Sys2Proof.core.run k t := coreRun_succ Sys2Proof.core h k

/-- A run is continued from where it ended. -/
theorem run_add_of_run {s t : State} {a : Nat} (h : Sys2Proof.core.run a s = .next t) (b : Nat) :
    Sys2Proof.core.run (a + b) s = Sys2Proof.core.run b t := by
  induction a generalizing s with
  | zero =>
    obtain rfl : s = t := Host.Outcome.next.inj h
    rw [Nat.zero_add]
  | succ a ih =>
    obtain ⟨u, hu⟩ := exists_step_next s
    rw [run_succ_of_step hu] at h
    rw [Nat.add_right_comm, run_succ_of_step hu, ih h]

/-! The command sequences -/

theorem commandsOf_append (is js : List Instr) : commandsOf (is ++ js) = commandsOf is ++ commandsOf js :=
  List.map_append

@[simp] theorem commandsOf_cons (i : Instr) (is : List Instr) :
    commandsOf (i :: is) = .command (encode i) :: commandsOf is := rfl

theorem updateInstrs_append (A B : List Byte) : updateInstrs (A ++ B) = updateInstrs A ++ updateInstrs B :=
  List.map_append

/-! A chunk -/

/-- One UPDB of a state that holds `M` with FIN = 0 (R97, R12). -/
theorem State.Holds.step_updb {s : State} {M : List Byte} {d : Byte} {rest : List HostEvent} (hs : s.Holds M)
    (hfin : s.fin = false) (hin : s.inbox = .command (encode (.updb d)) :: rest) :
    ∃ t, step s = .next t ∧ t.Holds (M ++ [d]) ∧ t.fin = false ∧ t.err = s.err ∧ t.inbox = rest ∧
      t.responses = s.responses ++ [⟨.ok, 0⟩] := by
  by_cases hfull : s.buflen.toNat + 1 = 64
  · exact ⟨_, (Transition.drain d hfin hfull).step_eq hin, hs.drain d hfin hfull _ _, hfin, rfl, rfl, rfl⟩
  · exact ⟨_, (Transition.append d hfin hfull).step_eq hin, hs.append d hfin hfull _ _, hfin, rfl, rfl, rfl⟩

/-- The steps over a chunk append it to the message that the state holds (R99). -/
theorem State.Holds.run_chunk {s : State} {M C : List Byte} {rest : List HostEvent} (hs : s.Holds M)
    (hfin : s.fin = false) (hin : s.inbox = commandsOf (updateInstrs C) ++ rest) :
    ∃ t, Sys2Proof.core.run C.length s = .next t ∧ t.Holds (M ++ C) ∧ t.fin = false ∧ t.err = s.err ∧
      t.inbox = rest ∧ t.responses = s.responses ++ List.replicate C.length ⟨.ok, 0⟩ := by
  induction C generalizing s M with
  | nil => exact ⟨s, rfl, by rwa [List.append_nil], hfin, rfl, hin, (List.append_nil _).symm⟩
  | cons d C ih =>
    obtain ⟨u, hstep, hu, hufin, huerr, huin, huresp⟩ := hs.step_updb hfin hin
    obtain ⟨t, hrun, ht, htfin, hterr, htin, htresp⟩ := ih hu hufin huin
    refine ⟨t, (run_succ_of_step hstep C.length).trans hrun, ?_, htfin, hterr.trans huerr, htin, ?_⟩
    · rwa [List.append_assoc] at ht
    · rw [htresp, huresp, List.append_assoc, List.length_cons, List.replicate_succ]
      rfl

/-- Settles O37, by `State.Holds.run_chunk`. -/
theorem chunkAppendsToTheMessage : Obligations.ChunkAppendsToTheMessage := by
  unfold Obligations.ChunkAppendsToTheMessage
  refine ⟨fun A B => ?_, fun s M C rest hs hfin hin => hs.run_chunk hfin hin⟩
  rw [updateInstrs_append, commandsOf_append]

/-! One-shot hashing -/

/-- INIT as a step: the state holds the empty message (R96). -/
theorem step_init {s : State} {rest : List HostEvent} (hin : s.inbox = .command (encode .init) :: rest) :
    ∃ t, step s = .next t ∧ t.Holds [] ∧ t.fin = false ∧ t.err = false ∧ t.inbox = rest ∧
      t.responses = s.responses ++ [⟨.ok, 0⟩] :=
  ⟨_, Transition.init.step_eq hin, (initialise_holds_nil s).congr rfl rfl rfl rfl rfl, rfl, rfl, rfl, rfl⟩

/-- FINAL of a state that holds `M` with FIN = 0: H becomes the hash of `M` (R101). -/
theorem State.Holds.step_final {s : State} {M : List Byte} {rest : List HostEvent} (hs : s.Holds M)
    (hfin : s.fin = false) (hin : s.inbox = .command (encode .final) :: rest) :
    ∃ t, step s = .next t ∧ t.h = sha1 M ∧ t.fin = true ∧ t.err = s.err ∧ t.inbox = rest ∧
      t.responses = s.responses ++ [⟨.ok, 0⟩] :=
  ⟨_, (Transition.final hfin).step_eq hin, (hs.final hfin rest (s.responses ++ [⟨.ok, 0⟩])).digest rfl, rfl, rfl, rfl,
    rfl⟩

/-- Reads answer the registers in order and change nothing else (R110). -/
theorem run_reads {s : State} {rs : List Reg} {rest : List HostEvent}
    (hin : s.inbox = commandsOf (rs.map .rdr) ++ rest) :
    Sys2Proof.core.run rs.length s = .next { s with
      inbox := rest
      responses := s.responses ++ rs.map fun r => ⟨.ok, s.regValue r⟩ } := by
  induction rs generalizing s with
  | nil =>
    obtain rfl : s.inbox = rest := hin
    rw [List.map_nil, List.append_nil]
    rfl
  | cons r rs ih =>
    rw [List.length_cons, run_succ_of_step ((Transition.rdr r).step_eq hin), ih rfl, List.map_cons,
      List.append_assoc]
    rfl

/-- The events of one-shot hashing by their phases (R103). -/
theorem commandsOf_sha1Instrs (M : List Byte) (rest : List HostEvent) :
    commandsOf (sha1Instrs M) ++ rest =
      .command (encode .init) :: (commandsOf (updateInstrs M) ++
        (.command (encode .final) :: (commandsOf rdDigestInstrs ++ rest))) := by
  rw [sha1Instrs, commandsOf_cons, commandsOf_append, commandsOf_cons, List.cons_append, List.append_assoc,
    List.cons_append]

/-- Settles O38: INIT leaves the empty message, the chunk makes it `M`, FINAL its hash, and the reads answer that. -/
theorem oneShotHashesTheMessage : Obligations.OneShotHashesTheMessage := by
  unfold Obligations.OneShotHashesTheMessage
  intro s M rest hin
  rw [commandsOf_sha1Instrs] at hin
  obtain ⟨s₁, hinit, hholds, hfin, herr₁, hin₁, hresp₁⟩ := step_init hin
  obtain ⟨s₂, hchunk, hholds₂, hfin₂, herr₂, hin₂, hresp₂⟩ := hholds.run_chunk hfin hin₁
  rw [List.nil_append] at hholds₂
  obtain ⟨s₃, hfinal, hhash, hfin₃, herr₃, hin₃, hresp₃⟩ := hholds₂.step_final hfin₂ hin₂
  have hreads := run_reads (rs := [.h0, .h1, .h2, .h3, .h4]) hin₃
  have hrun : Sys2Proof.core.run (M.length + 6 + 1) s = Sys2Proof.core.run 5 s₃ := by
    rw [run_succ_of_step hinit, run_add_of_run hchunk, run_succ_of_step hfinal]
  have hok : s₃.responses = s.responses ++ List.replicate (M.length + 2) ⟨.ok, 0⟩ := by
    rw [hresp₃, hresp₂, hresp₁, List.replicate_succ, List.replicate_succ']
    simp only [List.append_assoc, List.cons_append, List.nil_append]
  refine ⟨_, hrun.trans hreads, hfin₃, hhash, herr₃.trans (herr₂.trans herr₁), rfl, ?_⟩
  rw [← hhash, ← hok]
  rfl

end Sys2Proof.Machine
end

section
/-! SUPPORT. The statements about the digest's presentations: its raw bytes (R116) and its hexadecimal digits (R117),
each read as a slice of the 160-bit digest (R115). -/

namespace Sys2Proof.Machine

/-- Entry k of joined groups of c entries each is entry k mod c of group k div c. -/
theorem getElem?_flatMap_const {α β : Type} {f : α → List β} {c : Nat} (hf : ∀ a, (f a).length = c) (hc : 0 < c)
    (l : List α) (k : Nat) : (l.flatMap f)[k]? = l[k / c]?.bind fun a => (f a)[k % c]? := by
  induction l generalizing k with
  | nil => rfl
  | cons a l ih =>
    rw [List.flatMap_cons]
    by_cases hk : k < c
    · rw [List.getElem?_append_left (by rwa [hf]), Nat.div_eq_of_lt hk, Nat.mod_eq_of_lt hk]
      rfl
    · have hle : c ≤ k := Nat.le_of_not_lt hk
      rw [List.getElem?_append_right (by rwa [hf]), hf, ih, Nat.div_eq_sub_div hc hle, Nat.mod_eq_sub_mod hle]
      rfl

/-! The raw bytes -/

/-- The five words in the order of the digest (R115). -/
def HashState.words (h : HashState) : List Word := [h.h0, h.h1, h.h2, h.h3, h.h4]

theorem digestBytes_eq_flatMap (h : HashState) : digestBytes h = h.words.flatMap be32 := by
  simp only [digestBytes, HashState.words, List.flatMap_cons, List.flatMap_nil, List.append_nil, List.append_assoc]

theorem digestBytes_length (h : HashState) : (digestBytes h).length = 20 := rfl

/-- Byte j of a word (R8). -/
theorem be32_getElem? (v : Word) {j : Nat} (hj : j < 4) : (be32 v)[j]? = some (v.extractLsb' (24 - 8 * j) 8) := by
  have hbytes : be32 v = (List.range 4).map fun j => v.extractLsb' (24 - 8 * j) 8 := rfl
  rw [hbytes, List.getElem?_map, List.getElem?_range hj, Option.map_some]

theorem digestBytes_getElem? (h : HashState) {j : Nat} (hj : j < 20) :
    (digestBytes h)[j]? = some ((h.words.getD (j / 4) 0).extractLsb' (24 - 8 * (j % 4)) 8) := by
  have hword : j / 4 < h.words.length := show j / 4 < 5 by omega
  rw [digestBytes_eq_flatMap, getElem?_flatMap_const (c := 4) (fun _ => rfl) (by decide),
    List.getD_eq_getElem _ _ hword, List.getElem?_eq_getElem hword, Option.bind_some,
    be32_getElem? _ (Nat.mod_lt _ (by decide))]

/-- Settles O39: the digest's bytes are those of its words, four each, by `digestBytes_getElem?`. -/
theorem digestBytesAreBigEndian : Obligations.DigestBytesAreBigEndian := by
  unfold Obligations.DigestBytesAreBigEndian
  exact fun h => ⟨digestBytes_length h, fun j hj => digestBytes_getElem? h hj⟩

/-! The hexadecimal digits -/

/-- Word i of the digest is 32 of its bits, word 0 the most significant (R115). -/
theorem words_getD (h : HashState) {i : Nat} (hi : i < 5) :
    h.words.getD i 0 = (digest h).extractLsb' (128 - 32 * i) 32 := by
  have hwords : h.words = (unpackState (digest h)).words := (congrArg HashState.words (unpackState_packState h)).symm
  rw [hwords]
  interval_cases i <;> rfl

/-- A slice that lies inside a slice is a slice of the whole. -/
theorem extractLsb'_extractLsb'_of_add_le {n : Nat} (x : BitVec n) {p q a b : Nat} (h : q + b ≤ a) :
    (x.extractLsb' p a).extractLsb' q b = x.extractLsb' (p + q) b := by
  apply BitVec.eq_of_getLsbD_eq
  intro i hi
  have hin : q + i < a := by omega
  simp only [BitVec.getLsbD_extractLsb', hi, hin, decide_true, Bool.true_and, Nat.add_assoc]

/-- Byte j of the raw form as a slice of the digest, byte 0 the most significant (R115, R116). -/
theorem digestBytes_getElem?_digest (h : HashState) {j : Nat} (hj : j < 20) :
    (digestBytes h)[j]? = some ((digest h).extractLsb' (152 - 8 * j) 8) := by
  have hpos : 128 - 32 * (j / 4) + (24 - 8 * (j % 4)) = 152 - 8 * j := by omega
  rw [digestBytes_getElem? h hj, words_getD h (by omega), extractLsb'_extractLsb'_of_add_le _ (by omega), hpos]

/-- The high nibble's digit comes first (R117). -/
theorem hexByte_getElem? (b : Byte) {k : Nat} (hk : k < 2) :
    (hexByte b)[k]? = some (hexDigit (b.extractLsb' (4 - 4 * k) 4)) := by
  interval_cases k <;> rfl

theorem hex40_length (h : HashState) : (hex40 h).length = 40 := rfl

/-- Character k is the digit of nibble k of the digest, nibble 0 the most significant (R117). -/
theorem hex40_getElem? (h : HashState) {k : Nat} (hk : k < 40) :
    (hex40 h)[k]? = some (hexDigit ((digest h).extractLsb' (4 * (39 - k)) 4)) := by
  have hpos : 152 - 8 * (k / 2) + (4 - 4 * (k % 2)) = 4 * (39 - k) := by omega
  rw [hex40, getElem?_flatMap_const (c := 2) (fun _ => rfl) (by decide), digestBytes_getElem?_digest h (by omega),
    Option.bind_some, hexByte_getElem? _ (Nat.mod_lt _ (by decide)), extractLsb'_extractLsb'_of_add_le _ (by omega),
    hpos]

/-- The digits in the order of their values (R117). -/
theorem hexDigits_getElem? : ∀ n : BitVec 4,
    ['0', '1', '2', '3', '4', '5', '6', '7', '8', '9', 'a', 'b', 'c', 'd', 'e', 'f'][n.toNat]? = some (hexDigit n) := by
  decide

/-- Nibble i of a value, the least significant first. -/
theorem nibble_toNat {n : Nat} (x : BitVec n) (i : Nat) :
    (x.extractLsb' (4 * i) 4).toNat = x.toNat / 16 ^ i % 16 := by
  rw [BitVec.extractLsb'_toNat, Nat.shiftRight_eq_div_pow, Nat.pow_mul]

/-- Settles O40: character k is the digit of the nibble 4 (39 - k) bits up in the digest, by `hex40_getElem?`. -/
theorem hexFormHasFortyDigits : Obligations.HexFormHasFortyDigits := by
  unfold Obligations.HexFormHasFortyDigits
  refine fun h => ⟨hex40_length h, fun k hk => ?_⟩
  rw [hex40_getElem? h hk, ← hexDigits_getElem?, nibble_toNat]

end Sys2Proof.Machine
end

section
/-! SUPPORT. The statements about the two exceptions (R121 to R125): the response's code by its cause, and what an
exception writes. -/

namespace Sys2Proof.Machine

/-- The cause of each exception in a state whose flag FIN is `fin` (R121, R122). -/
def Exc.Cause (w : CmdWord) (fin : Bool) : Exc → Prop
  | .estate => fin = true ∧ ((∃ d, w = encode (.updb d)) ∨ w = encode .final)
  | .eillegal => ∀ i, w ≠ encode i

/-- `causesException` is the union of the two causes (R120). -/
theorem causesException_iff {w : CmdWord} {fin : Bool} : causesException w fin ↔ ∃ e, Exc.Cause w fin e := by
  rw [causesException, legalWord_eq_false_iff]
  constructor
  · rintro (hw | hs)
    · exact ⟨.eillegal, hw⟩
    · exact ⟨.estate, hs⟩
  · rintro ⟨_ | _, hc⟩
    · exact .inr hc
    · exact .inl hc

/-- A word that is a command has no EILLEGAL cause, so the two causes exclude each other (R124). -/
theorem Exc.Cause.unique {w : CmdWord} {fin : Bool} {e e' : Exc} (h : Exc.Cause w fin e) (h' : Exc.Cause w fin e') :
    e = e' := by
  have excl : Exc.Cause w fin .estate → ¬Exc.Cause w fin .eillegal := by
    rintro ⟨-, ⟨d, hw⟩ | hw⟩ hill
    · exact hill _ hw
    · exact hill _ hw
  match e, e', h, h' with
  | .estate, .estate, _, _ => rfl
  | .estate, .eillegal, h, h' => exact absurd h' (excl h)
  | .eillegal, .estate, h, h' => exact absurd h (excl h')
  | .eillegal, .eillegal, _, _ => rfl

theorem Exc.code_inj {e e' : Exc} : e.code = e'.code ↔ e = e' := by
  cases e <;> cases e' <;> simp [Exc.code]

theorem Exc.code_ne_ok (e : Exc) : e.code ≠ .ok := by cases e <;> simp [Exc.code]

/-- A command's rule answers OK without a cause of an exception, or it is `raise` of an exception with its cause. -/
theorem Transition.ok_or_raise {s t : State} {w : CmdWord} {rest : List HostEvent}
    (h : Transition s rest (.command w) t) :
    (∃ x, t.responses = s.responses ++ [⟨.ok, x⟩] ∧ ¬causesException w s.fin) ∨
    (∃ e, Exc.Cause w s.fin e ∧ raise e { s with inbox := rest } = .next t) := by
  cases h with
  | init => exact .inl ⟨0, rfl, by simp⟩
  | append d hf => exact .inl ⟨0, rfl, by simp [hf]⟩
  | drain d hf => exact .inl ⟨0, rfl, by simp [hf]⟩
  | final hf => exact .inl ⟨0, rfl, by simp [hf]⟩
  | estate i hi hf => exact .inr ⟨.estate, by simpa [Exc.Cause, hf] using hi, rfl⟩
  | rdr r => exact .inl ⟨_, rfl, by simp⟩
  | illegal _ hw => exact .inr ⟨.eillegal, hw, rfl⟩

/-- The response's code is an exception's exactly when the exception has its cause. -/
theorem Transition.code_eq_iff_cause {s t : State} {w : CmdWord} {rest : List HostEvent}
    (h : Transition s rest (.command w) t) :
    ∃ r, t.responses = s.responses ++ [r] ∧ ∀ e : Exc, r.code = e.code ↔ Exc.Cause w s.fin e := by
  obtain ⟨x, hresp, hno⟩ | ⟨e, hc, ht⟩ := h.ok_or_raise
  · refine ⟨_, hresp, fun e => iff_of_false e.code_ne_ok.symm fun hc => ?_⟩
    exact hno (causesException_iff.mpr ⟨e, hc⟩)
  · cases ht
    refine ⟨_, rfl, fun e' => Exc.code_inj.trans ⟨?_, hc.unique⟩⟩
    rintro rfl
    exact hc

/-- Settles O21: both exceptions' cases of `Transition.code_eq_iff_cause`. -/
theorem exceptionsHaveExactlyTheirCauses : Obligations.ExceptionsHaveExactlyTheirCauses := by
  unfold Obligations.ExceptionsHaveExactlyTheirCauses
  intro s w rest hin
  obtain ⟨t, htr⟩ := exists_transition s (.command w) rest
  obtain ⟨r, hresp, hcode⟩ := htr.code_eq_iff_cause
  exact ⟨t, r, htr.step_eq hin, hresp, hcode .estate, hcode .eillegal⟩

/-- Settles O22: a rule whose code is not OK is `raise`, which writes ERR and the response alone. -/
theorem exceptionsArePrecise : Obligations.ExceptionsArePrecise := by
  unfold Obligations.ExceptionsArePrecise
  intro s t w rest r hin hs hresp hcode
  obtain ⟨x, hok, -⟩ | ⟨e, -, ht⟩ := (transition_of_step hin hs).ok_or_raise
  · obtain rfl : ⟨.ok, x⟩ = r := by simpa [hok] using hresp
    exact absurd rfl hcode
  · cases ht
    obtain rfl : ⟨e.code, 0⟩ = r := by simpa using hresp
    exact ⟨⟨rfl, rfl, rfl, rfl, fun _ => rfl⟩, rfl, rfl, rfl⟩

end Sys2Proof.Machine
end

section
/-! SUPPORT. The statements about every step (R148) and about the record of misuse (R149): what a step does to the inbox
and to the responses. -/

namespace Sys2Proof.Machine

/-- Each rule takes its event and adds at most one response: none for the reset event, one for a command (R56, R140). -/
theorem Transition.inbox_and_responses {s t : State} {e : HostEvent} {rest : List HostEvent}
    (h : Transition s rest e t) :
    t.inbox = rest ∧ (t.responses = s.responses ∨ ∃ r, t.responses = s.responses ++ [r]) := by
  cases e with
  | reset =>
    cases h
    exact ⟨rfl, .inl rfl⟩
  | command w =>
    obtain ⟨r, hinbox, hresp, -⟩ := h.response
    exact ⟨hinbox, .inr ⟨r, hresp⟩⟩

/-- Settles O25: an idle step changes nothing, any other step is a rule (`Transition.inbox_and_responses`). -/
theorem everyStepAnswersANextState : Obligations.EveryStepAnswersANextState := by
  unfold Obligations.EveryStepAnswersANextState
  intro s
  obtain ⟨t, hs⟩ := exists_step_next s
  refine ⟨t, hs, ?_⟩
  obtain ⟨hin, rfl⟩ | ⟨e, rest, hin, htr⟩ := step_next_cases hs
  · simp [hin]
  · obtain ⟨hinbox, hresp | ⟨r, hresp⟩⟩ := htr.inbox_and_responses
    · simp [hin, hinbox, hresp]
    · simp [hin, hinbox, hresp]

/-- One more response keeps the record free of misuse exactly when its code is OK. -/
theorem State.noMisuse_iff_of_append {s t : State} {r : Response} (h : t.responses = s.responses ++ [r]) :
    t.noMisuse = true ↔ s.noMisuse = true ∧ r.code = .ok := by
  simp [State.noMisuse, h]

/-- Settles O24: the response that a command adds is OK without a cause of an exception, and the exception's code with
one (`Transition.ok_or_raise`). -/
theorem noMisuseIsLostExactlyByExceptions : Obligations.NoMisuseIsLostExactlyByExceptions := by
  unfold Obligations.NoMisuseIsLostExactlyByExceptions
  intro s t w rest hin hs
  obtain ⟨x, hresp, hno⟩ | ⟨e, hc, ht⟩ := (transition_of_step hin hs).ok_or_raise
  · rw [State.noMisuse_iff_of_append hresp]
    exact and_congr_right fun _ => iff_of_true rfl hno
  · cases ht
    have hexc : causesException w s.fin := causesException_iff.mpr ⟨e, hc⟩
    refine (State.noMisuse_iff_of_append (s := s) (r := ⟨e.code, 0⟩) rfl).trans ?_
    exact and_congr_right fun _ => iff_of_false e.code_ne_ok (not_not_intro hexc)

end Sys2Proof.Machine
end
